-- ==== Sys2Proof/Word.lean ====
section
/-! DEFINITION. The word types: the unsigned widths of 00_scope R9. -/

namespace Sys2Proof

/-- u8: a V register, a timer, a memory byte, an immediate NN. -/
abbrev Byte := BitVec 8

/-- u12: the pc, a stack slot, an address field NNN. -/
abbrev Addr := BitVec 12

/-- u16: an instruction word and the index register I. -/
abbrev Word := BitVec 16

/-- A 4-bit field of an instruction word (30_encoding R81). -/
abbrev Nibble := BitVec 4

/-- The index of a general register V0..VF (10_state R22). -/
abbrev Reg := Fin 16

/-- A logical key 0x0..0xF (10_state R32). -/
abbrev Key := Fin 16

end Sys2Proof
end

