-- ==== Sys2Proof/Decode.lean ====
section
/-! DEFINITION. The decoder (total, rejecting by name), the encoder and the opcode table (30_encoding). -/

namespace Sys2Proof

/-- Field `n1`, bits 15..12 (30_encoding R81). -/
def n1Field (w : Word) : Nibble := w.extractLsb' 12 4

/-- Field `X`, bits 11..8 (30_encoding R81). -/
def xField (w : Word) : Nibble := w.extractLsb' 8 4

/-- Field `Y`, bits 7..4 (30_encoding R81). -/
def yField (w : Word) : Nibble := w.extractLsb' 4 4

/-- Field `N`, bits 3..0 (30_encoding R81). -/
def nField (w : Word) : Nibble := w.extractLsb' 0 4

/-- Field `NN`, bits 7..0 (30_encoding R81). -/
def nnField (w : Word) : Byte := w.extractLsb' 0 8

/-- Field `NNN`, bits 11..0 (30_encoding R81). -/
def nnnField (w : Word) : Addr := w.extractLsb' 0 12

/-- A register field read as a register index (30_encoding R82). -/
def regOf (f : Nibble) : Reg := f.toFin

/-- Why the decoder rejects: the family an illegal word belongs to (30_encoding R86), or too few bytes. -/
inductive Illegal where
  /-- 0x0000..0x0FFF other than 0x00E0 and 0x00EE. -/
  | family0
  /-- 0x5XYn with n != 0. -/
  | family5
  /-- 0x8XYn with n in 8, 9, A, B, C, D, F. -/
  | family8
  /-- 0x9XYn with n != 0. -/
  | family9
  /-- 0xEXnn with nn not 9E or A1. -/
  | familyE
  /-- 0xFXnn with nn not one of the nine function codes. -/
  | familyF
  /-- Fewer than the two bytes of an instruction (30_encoding R80); no fetch gives this. -/
  | truncated
  deriving DecidableEq, Repr

/-- Family 0 is decided on the whole word (30_encoding R83). -/
def decode0 (w : Word) : Except Illegal Instr :=
  if w = 0x00E0#16 then .ok .cls
  else if w = 0x00EE#16 then .ok .ret
  else .error .family0

/-- Family 8 is decided on `N` (30_encoding R83). -/
def decode8 (w : Word) : Except Illegal Instr :=
  let x := regOf (xField w)
  let y := regOf (yField w)
  match nField w with
  | 0x0#4 => .ok (.ldReg x y)
  | 0x1#4 => .ok (.orReg x y)
  | 0x2#4 => .ok (.andReg x y)
  | 0x3#4 => .ok (.xorReg x y)
  | 0x4#4 => .ok (.addReg x y)
  | 0x5#4 => .ok (.subReg x y)
  | 0x6#4 => .ok (.shr x y)
  | 0x7#4 => .ok (.subn x y)
  | 0xE#4 => .ok (.shl x y)
  | _ => .error .family8

/-- Family E is decided on `NN` (30_encoding R83). -/
def decodeE (w : Word) : Except Illegal Instr :=
  let x := regOf (xField w)
  match nnField w with
  | 0x9E#8 => .ok (.skp x)
  | 0xA1#8 => .ok (.sknp x)
  | _ => .error .familyE

/-- Family F is decided on `NN` (30_encoding R83). -/
def decodeF (w : Word) : Except Illegal Instr :=
  let x := regOf (xField w)
  match nnField w with
  | 0x07#8 => .ok (.ldVxDt x)
  | 0x0A#8 => .ok (.ldVxK x)
  | 0x15#8 => .ok (.ldDtVx x)
  | 0x18#8 => .ok (.ldStVx x)
  | 0x1E#8 => .ok (.addI x)
  | 0x29#8 => .ok (.ldF x)
  | 0x33#8 => .ok (.ldB x)
  | 0x55#8 => .ok (.ldMemVx x)
  | 0x65#8 => .ok (.ldVxMem x)
  | _ => .error .familyF

/-- Dispatch on `n1` first, then within the family (30_encoding R83, R85). Every first nibble has a family; the last
arm is family F. -/
def decodeWord (w : Word) : Except Illegal Instr :=
  let x := regOf (xField w)
  let y := regOf (yField w)
  match n1Field w with
  | 0x0#4 => decode0 w
  | 0x1#4 => .ok (.jp (nnnField w))
  | 0x2#4 => .ok (.call (nnnField w))
  | 0x3#4 => .ok (.seImm x (nnField w))
  | 0x4#4 => .ok (.sneImm x (nnField w))
  | 0x5#4 => if nField w = 0x0#4 then .ok (.seReg x y) else .error .family5
  | 0x6#4 => .ok (.ldImm x (nnField w))
  | 0x7#4 => .ok (.addImm x (nnField w))
  | 0x8#4 => decode8 w
  | 0x9#4 => if nField w = 0x0#4 then .ok (.sneReg x y) else .error .family9
  | 0xA#4 => .ok (.ldI (nnnField w))
  | 0xB#4 => .ok (.jpV0 (nnnField w))
  | 0xC#4 => .ok (.rnd x (nnField w))
  | 0xD#4 => .ok (.drw x y (nField w).toNat)
  | 0xE#4 => decodeE w
  | _ => decodeF w

/-- Two bytes as a word, the byte at the lower address in bits 15..8 (20_memory R62). -/
def joinBytes (hi lo : Byte) : Word := hi ++ lo

/-- A word as its two bytes, lower address first (20_memory R62). -/
def wordBytes (w : Word) : List Byte := [w.extractLsb' 8 8, w.extractLsb' 0 8]

/-- Decode from bytes: the instruction and the bytes after it (30_encoding R80: every instruction is two bytes). -/
def decode : List Byte → Except Illegal (Instr × List Byte)
  | hi :: lo :: rest =>
    match decodeWord (joinBytes hi lo) with
    | .ok i => .ok (i, rest)
    | .error e => .error e
  | _ => .error .truncated

/-- The instruction in a word numbered as the opcode table numbers it; bits from `nbits` up are 0. -/
def decodeTableWord (nbits w : Nat) : Option Instr :=
  match decode (wordBytes (BitVec.ofNat 16 (w % 2 ^ nbits))) with
  | .ok (i, _) => some i
  | .error _ => none

/-- A register index placed in the X field, bits 11..8 (30_encoding R81). -/
def placeX (x : Reg) : Word := BitVec.ofNat 16 x.val <<< 8

/-- A register index placed in the Y field, bits 7..4 (30_encoding R81). -/
def placeY (y : Reg) : Word := BitVec.ofNat 16 y.val <<< 4

/-- A count placed in the N field, bits 3..0 (30_encoding R81). -/
def placeN (n : Nat) : Word := (BitVec.ofNat 4 n).setWidth 16

/-- An immediate placed in the NN field, bits 7..0 (30_encoding R81). -/
def placeNN (nn : Byte) : Word := nn.setWidth 16

/-- An address placed in the NNN field, bits 11..0 (30_encoding R81). -/
def placeNNN (nnn : Addr) : Word := nnn.setWidth 16

/-- The word an instruction assembles to: its row's match with the fields placed (30_encoding R87, R90). -/
def encode : Instr → Word
  | .cls => 0x00E0#16
  | .ret => 0x00EE#16
  | .jp nnn => 0x1000#16 ||| placeNNN nnn
  | .call nnn => 0x2000#16 ||| placeNNN nnn
  | .seImm x nn => 0x3000#16 ||| placeX x ||| placeNN nn
  | .sneImm x nn => 0x4000#16 ||| placeX x ||| placeNN nn
  | .seReg x y => 0x5000#16 ||| placeX x ||| placeY y
  | .ldImm x nn => 0x6000#16 ||| placeX x ||| placeNN nn
  | .addImm x nn => 0x7000#16 ||| placeX x ||| placeNN nn
  | .ldReg x y => 0x8000#16 ||| placeX x ||| placeY y
  | .orReg x y => 0x8001#16 ||| placeX x ||| placeY y
  | .andReg x y => 0x8002#16 ||| placeX x ||| placeY y
  | .xorReg x y => 0x8003#16 ||| placeX x ||| placeY y
  | .addReg x y => 0x8004#16 ||| placeX x ||| placeY y
  | .subReg x y => 0x8005#16 ||| placeX x ||| placeY y
  | .shr x y => 0x8006#16 ||| placeX x ||| placeY y
  | .subn x y => 0x8007#16 ||| placeX x ||| placeY y
  | .shl x y => 0x800E#16 ||| placeX x ||| placeY y
  | .sneReg x y => 0x9000#16 ||| placeX x ||| placeY y
  | .ldI nnn => 0xA000#16 ||| placeNNN nnn
  | .jpV0 nnn => 0xB000#16 ||| placeNNN nnn
  | .rnd x nn => 0xC000#16 ||| placeX x ||| placeNN nn
  | .drw x y n => 0xD000#16 ||| placeX x ||| placeY y ||| placeN n
  | .skp x => 0xE09E#16 ||| placeX x
  | .sknp x => 0xE0A1#16 ||| placeX x
  | .ldVxDt x => 0xF007#16 ||| placeX x
  | .ldVxK x => 0xF00A#16 ||| placeX x
  | .ldDtVx x => 0xF015#16 ||| placeX x
  | .ldStVx x => 0xF018#16 ||| placeX x
  | .addI x => 0xF01E#16 ||| placeX x
  | .ldF x => 0xF029#16 ||| placeX x
  | .ldB x => 0xF033#16 ||| placeX x
  | .ldMemVx x => 0xF055#16 ||| placeX x
  | .ldVxMem x => 0xF065#16 ||| placeX x

/-- A row of the opcode table: a word `w` selects it when `w &&& mask = value` (30_encoding R87). -/
structure Row where
  value : Word
  mask : Word
  deriving DecidableEq, Repr

/-- The table's test of a word against a row (30_encoding R87, 40_engine_cycle R105). -/
def rowSelects (r : Row) (w : Word) : Bool := w &&& r.mask == r.value

/-- The row each instruction belongs to, by the match and mask columns of 30_encoding R87. -/
def rowOf : Instr → Row
  | .cls => ⟨0x00E0#16, 0xFFFF#16⟩
  | .ret => ⟨0x00EE#16, 0xFFFF#16⟩
  | .jp _ => ⟨0x1000#16, 0xF000#16⟩
  | .call _ => ⟨0x2000#16, 0xF000#16⟩
  | .seImm _ _ => ⟨0x3000#16, 0xF000#16⟩
  | .sneImm _ _ => ⟨0x4000#16, 0xF000#16⟩
  | .seReg _ _ => ⟨0x5000#16, 0xF00F#16⟩
  | .ldImm _ _ => ⟨0x6000#16, 0xF000#16⟩
  | .addImm _ _ => ⟨0x7000#16, 0xF000#16⟩
  | .ldReg _ _ => ⟨0x8000#16, 0xF00F#16⟩
  | .orReg _ _ => ⟨0x8001#16, 0xF00F#16⟩
  | .andReg _ _ => ⟨0x8002#16, 0xF00F#16⟩
  | .xorReg _ _ => ⟨0x8003#16, 0xF00F#16⟩
  | .addReg _ _ => ⟨0x8004#16, 0xF00F#16⟩
  | .subReg _ _ => ⟨0x8005#16, 0xF00F#16⟩
  | .shr _ _ => ⟨0x8006#16, 0xF00F#16⟩
  | .subn _ _ => ⟨0x8007#16, 0xF00F#16⟩
  | .shl _ _ => ⟨0x800E#16, 0xF00F#16⟩
  | .sneReg _ _ => ⟨0x9000#16, 0xF00F#16⟩
  | .ldI _ => ⟨0xA000#16, 0xF000#16⟩
  | .jpV0 _ => ⟨0xB000#16, 0xF000#16⟩
  | .rnd _ _ => ⟨0xC000#16, 0xF000#16⟩
  | .drw _ _ _ => ⟨0xD000#16, 0xF000#16⟩
  | .skp _ => ⟨0xE09E#16, 0xF0FF#16⟩
  | .sknp _ => ⟨0xE0A1#16, 0xF0FF#16⟩
  | .ldVxDt _ => ⟨0xF007#16, 0xF0FF#16⟩
  | .ldVxK _ => ⟨0xF00A#16, 0xF0FF#16⟩
  | .ldDtVx _ => ⟨0xF015#16, 0xF0FF#16⟩
  | .ldStVx _ => ⟨0xF018#16, 0xF0FF#16⟩
  | .addI _ => ⟨0xF01E#16, 0xF0FF#16⟩
  | .ldF _ => ⟨0xF029#16, 0xF0FF#16⟩
  | .ldB _ => ⟨0xF033#16, 0xF0FF#16⟩
  | .ldMemVx _ => ⟨0xF055#16, 0xF0FF#16⟩
  | .ldVxMem _ => ⟨0xF065#16, 0xF0FF#16⟩

/-- The complete opcode table, rows 1 to 17 of 30_encoding R87. -/
def opcodeTableLow : List Row :=
  [⟨0x00E0#16, 0xFFFF#16⟩, ⟨0x00EE#16, 0xFFFF#16⟩, ⟨0x1000#16, 0xF000#16⟩, ⟨0x2000#16, 0xF000#16⟩,
   ⟨0x3000#16, 0xF000#16⟩, ⟨0x4000#16, 0xF000#16⟩, ⟨0x5000#16, 0xF00F#16⟩, ⟨0x6000#16, 0xF000#16⟩,
   ⟨0x7000#16, 0xF000#16⟩, ⟨0x8000#16, 0xF00F#16⟩, ⟨0x8001#16, 0xF00F#16⟩, ⟨0x8002#16, 0xF00F#16⟩,
   ⟨0x8003#16, 0xF00F#16⟩, ⟨0x8004#16, 0xF00F#16⟩, ⟨0x8005#16, 0xF00F#16⟩, ⟨0x8006#16, 0xF00F#16⟩,
   ⟨0x8007#16, 0xF00F#16⟩]

/-- The complete opcode table, rows 18 to 34 of 30_encoding R87. -/
def opcodeTableHigh : List Row :=
  [⟨0x800E#16, 0xF00F#16⟩, ⟨0x9000#16, 0xF00F#16⟩, ⟨0xA000#16, 0xF000#16⟩, ⟨0xB000#16, 0xF000#16⟩,
   ⟨0xC000#16, 0xF000#16⟩, ⟨0xD000#16, 0xF000#16⟩, ⟨0xE09E#16, 0xF0FF#16⟩, ⟨0xE0A1#16, 0xF0FF#16⟩,
   ⟨0xF007#16, 0xF0FF#16⟩, ⟨0xF00A#16, 0xF0FF#16⟩, ⟨0xF015#16, 0xF0FF#16⟩, ⟨0xF018#16, 0xF0FF#16⟩,
   ⟨0xF01E#16, 0xF0FF#16⟩, ⟨0xF029#16, 0xF0FF#16⟩, ⟨0xF033#16, 0xF0FF#16⟩, ⟨0xF055#16, 0xF0FF#16⟩,
   ⟨0xF065#16, 0xF0FF#16⟩]

/-- The complete opcode table of 30_encoding R87, 34 rows in its order. -/
def opcodeTable : List Row := opcodeTableLow ++ opcodeTableHigh

end Sys2Proof
end

