-- ==== Sys2Proof/Config.lean ====
section
/-! DEFINITION. What the implementation fixes (00_scope R6) the free random bytes (00_scope R7), and the free order of atomic
steps (40_engine_cycle R101). The values chosen
for the parameters that have alternatives stand beside the operations that use them (Machine/Operands.lean,
Machine/Flags.lean, Machine/HostOps.lean). -/

namespace Sys2Proof.Machine

/-- An atomic step or host operation that changes the core's state or ends its run (10_state R41). -/
inductive Event where
  /-- `step_instruction` (40_engine_cycle R100). -/
  | instr
  /-- `step_timer` (46_timers R330). -/
  | tick
  /-- `set_key(k, b)` (10_state R42). -/
  | setKey (k : Key) (pressed : Bool)
  /-- `clear_redraw` (10_state R44). -/
  | clearRedraw
  /-- `stop` (10_state R47). -/
  | stop
  deriving DecidableEq, Repr, Inhabited

end Sys2Proof.Machine

namespace Sys2Proof.Config

/-- `ADDR_MAX`: the highest memory address (R6). -/
@[simp, reducible] def addrMax : Nat := 0xFFF

/-- `STACK_DEPTH`: the number of stack slots (R6). -/
@[simp, reducible] def stackDepth : Nat := 16

/-- `FB_W`: the pixel buffer's width (R6). -/
@[simp, reducible] def fbWidth : Nat := 64

/-- `FB_H`: the pixel buffer's height (R6). -/
@[simp, reducible] def fbHeight : Nat := 32

/-- `GLYPH_BYTES`: bytes per glyph, the factor in FX29 (R6). -/
@[simp, reducible] def glyphBytes : Nat := 5

/-- `FONT_BASE`: the first byte of the glyph font (R6). -/
@[simp, reducible] def fontBase : Nat := 0x000

/-- The font's size: `FONT_END` is its last byte, at 0x04F (R6). -/
@[simp, reducible] def fontBytes : Nat := 80

/-- `PROG_BASE`: the load address and the pc after load (R6). -/
@[simp, reducible] def progBase : Nat := 0x200

/-- The values of `SHIFT_SRC`: the register 8XY6 and 8XYE shift (R6, 92_eei_decisions D5). -/
inductive ShiftSrc where
  | vy
  | vx
  deriving DecidableEq, Repr

/-- The values of `FX1E_VF_NO_OVERFLOW`: FX1E's VF when I + VX <= 0xFFF (R6, 92_eei_decisions D3). -/
inductive NoOverflowVf where
  | clear
  | keep
  deriving DecidableEq, Repr

/-- The random bytes CXNN receives, one after another: FREE VALUES (00_scope R7: "a draw under no law: any value
0x00..0xFF at each step"). No body, so nothing can be proved of them (assumption log 1: DESIGN CHOICE of the form, safe). -/
opaque rnd : Nat → Byte

/-- The atomic steps and host operations that come, one after another for ever: FREE VALUES (40_engine_cycle R101: "Any
interleaving is allowed"). No body, so what is proved of them holds of every infinite sequence (assumption log 2: DESIGN
CHOICE of the form, safe). -/
opaque schedule : Nat → Machine.Event

end Sys2Proof.Config
end

