-- ==== Sys2Proof/Machine/State.lean ====
section
/-! DEFINITION. The state of the core as plain data (10_state R20), the reasons a step can stop, and the state after
initialisation (10_state R35, 70_reset_and_hazards R390). -/

namespace Sys2Proof.Machine

/-- The kinds of engine fault (60_exceptions R350). Raising one is a NEXT state (R360): see `FaultRecord` and `RunState.faulted`. -/
inductive FaultKind where
  /-- A push with sp = 16: 2NNN. -/
  | stackOverflow
  /-- A pop with sp = 0: 00EE. -/
  | stackUnderflow
  /-- The fetched word is illegal. -/
  | decodeError
  /-- The pc would pass 0xFFF, or an access range passes 0xFFF. -/
  | addressOverflow
  /-- VX > 0xF used as a key number: EX9E, EXA1. -/
  | keyIndexError
  deriving DecidableEq, Repr

/-- The fault record (10_state R33, 60_exceptions R352): kind, numeric code, address and word of the instruction that raised it. -/
structure FaultRecord where
  kind : FaultKind
  code : Nat
  addr : Addr
  word : Word
  deriving DecidableEq, Repr

/-- The input array, one entry per key, true when pressed (10_state R32). -/
abbrev Keys := Vector Bool 16

/-- The pixel buffer: 32 rows of 64 cells, row first (10_state R29). -/
abbrev PixelBuffer := Vector (Vector Bool 64) 32

/-- The engine's run state (10_state R31). -/
inductive RunState where
  /-- The next instruction step fetches. -/
  | running
  /-- Suspended in FX0A: destination `x`, and the keys pressed at the previous sample. -/
  | waitKey (x : Reg) (mask : Keys)
  /-- A fault was raised; no further step. -/
  | faulted
  deriving DecidableEq, Repr

/-- The order of the atomic steps to come, the model's own (40_engine_cycle R101: "any finite or infinite sequence of them";
assumption log 2). -/
inductive Agenda where
  /-- This event, then the rest: with `cycle` or `free` at the end, any finite sequence comes first. -/
  | before (event : Event) (rest : Agenda)
  /-- These events over and over, for ever: `cycle .instr []` is instruction steps only. -/
  | cycle (event : Event) (others : List Event)
  /-- Any infinite sequence: the free events of `Config.schedule`, from this turn on. -/
  | free (turn : Nat)
  deriving DecidableEq, Repr

/-- The state record of 10_state R20, and two fields of the model's own (`draws`, `agenda`). -/
structure State where
  /-- `mem` (R21): the cells that differ from the reset content, addresses rising; see `memRead`, `Memory.wf`. -/
  mem : List Host.Cell
  /-- `V` (R22). -/
  v : Vector Byte 16
  /-- `I` (R24), stored as a u16. -/
  i : Word
  /-- `pc` (R25). -/
  pc : Addr
  /-- `sp` (R26), the count of occupied slots, 0..16. -/
  sp : Fin 17
  /-- `Stack` (R26). -/
  stack : Vector Addr 16
  /-- `DT` (R28). -/
  dt : Byte
  /-- `ST` (R28). -/
  st : Byte
  /-- `FB` (R29). -/
  fb : PixelBuffer
  /-- `Key` (R32). -/
  key : Keys
  /-- `redraw` (R30). -/
  redraw : Bool
  /-- `run` (R31). -/
  run : RunState
  /-- `fault` (R33). -/
  fault : Option FaultRecord
  /-- The model's own: how many random bytes CXNN has taken; the next is `Config.rnd draws` (assumption log 1). -/
  draws : Nat
  /-- The model's own: the atomic steps that come next, in order, without end (assumption log 2). -/
  agenda : Agenda
  deriving DecidableEq, Repr

/-- Why a step gives no next state. -/
inductive Fault where
  /-- Raised by `step` when `run` is `faulted`: the engine takes no further step of any kind (60_exceptions R362).
  Safe: the spec says no step is taken. -/
  | faulted
  /-- Raised by `step` on a `stop` event: the host invokes no further step and the state stays as it is (10_state R47).
  Safe: the spec says no step follows. -/
  | stopped
  deriving DecidableEq, Repr

/-- Why an instruction has no meaning in the model. -/
inductive Refusal where
  /-- Raised by `exec` for an instruction the model gives no meaning to; no arm does. Safe: the model stops. -/
  | notModelled (mnemonic : String)
  deriving DecidableEq, Repr

/-- The state after `init` (70_reset_and_hazards R390, 10_state R35); `draws` and `agenda` are DESIGN CHOICES (assumption
log 1 and 2). No cell is listed in `mem`: memory then reads as the reset content, the font and zeros. -/
def State.reset : State where
  mem := []
  v := Vector.replicate 16 0x00#8
  i := 0x0000#16
  pc := 0x200#12
  sp := 0
  stack := Vector.replicate 16 0x000#12
  dt := 0x00#8
  st := 0x00#8
  fb := Vector.replicate 32 (Vector.replicate 64 false)
  key := Vector.replicate 16 false
  redraw := false
  run := .running
  fault := none
  draws := 0
  agenda := .cycle .instr []

end Sys2Proof.Machine
end

