-- ==== Sys2Proof/Machine/Ops.lean ====
section
/-! DEFINITION. The named operations over memory, registers, the stack and the pc, and raising a fault. -/

namespace Sys2Proof.Machine

/-- The three outcomes of a step of this machine. -/
abbrev Result := Host.Outcome State Fault Refusal

/-! ## Memory (20_memory) -/

/-- Glyphs 0 to 7 of `FONT` (70_reset_and_hazards R403). PRESUMED, unsafe: the spec takes the bytes from general
knowledge (assumption log 5). -/
def fontLow : List Byte :=
  [0xF0, 0x90, 0x90, 0x90, 0xF0] ++ [0x20, 0x60, 0x20, 0x20, 0x70] ++
  [0xF0, 0x10, 0xF0, 0x80, 0xF0] ++ [0xF0, 0x10, 0xF0, 0x10, 0xF0] ++
  [0x90, 0x90, 0xF0, 0x10, 0x10] ++ [0xF0, 0x80, 0xF0, 0x10, 0xF0] ++
  [0xF0, 0x80, 0xF0, 0x90, 0xF0] ++ [0xF0, 0x10, 0x20, 0x40, 0x40]

/-- Glyphs 8 to F of `FONT` (70_reset_and_hazards R403). PRESUMED, unsafe (assumption log 5). -/
def fontHigh : List Byte :=
  [0xF0, 0x90, 0xF0, 0x90, 0xF0] ++ [0xF0, 0x90, 0xF0, 0x10, 0xF0] ++
  [0xF0, 0x90, 0xF0, 0x90, 0x90] ++ [0xE0, 0x90, 0xE0, 0x90, 0xE0] ++
  [0xF0, 0x80, 0x80, 0x80, 0xF0] ++ [0xE0, 0x90, 0x90, 0x90, 0xE0] ++
  [0xF0, 0x80, 0xF0, 0x80, 0xF0] ++ [0xF0, 0x80, 0xF0, 0x80, 0x80]

/-- The default of the parameter `FONT`: R403's table (00_scope R6, 70_reset_and_hazards R403). -/
def font : List Byte := fontLow ++ fontHigh

/-- A value of the parameter `FONT`: 80 glyph bytes, glyph d the five at 5 * d (00_scope R6, 70_reset_and_hazards R403). -/
abbrev Font := Vector Byte Config.fontBytes

/-- R403's table as a value of the parameter. -/
def defaultFont : Font := Vector.ofFn (fun a => font.getD a.val 0x00#8)

/-- What an address the memory list does not hold reads as: the content after `init` with the default font
(70_reset_and_hazards R390), the font at 0x000..0x04F and 0x00 elsewhere (assumption log 6). It is the representation's
base and no rule of its own: `State.init` lists the bytes in which another font differs. -/
def resetByte (a : Nat) : Byte := font.getD a 0x00#8

/-- The byte at an address (00_scope R10 `MemRead(addr, 1)`). -/
def memRead : List Host.Cell → Nat → Byte
  | [], a => resetByte a
  | (k, b) :: rest, a => if k = a then b else memRead rest a

/-- A cell put in its place in a list of cells, replacing the one at its address. -/
def memInsert : List Host.Cell → Nat → Byte → List Host.Cell
  | [], a, b => [(a, b)]
  | (k, c) :: rest, a, b =>
    if a < k then (a, b) :: (k, c) :: rest
    else if k = a then (a, b) :: rest
    else (k, c) :: memInsert rest a b

/-- The write of one byte (00_scope R10 `MemWrite(addr, 1, v)`), keeping the canonical form: writing the reset content
removes the entry. -/
def memWrite (m : List Host.Cell) (a : Nat) (b : Byte) : List Host.Cell :=
  if b = resetByte a then m.filter (fun c => c.1 ≠ a) else memInsert m a b

/-- Bytes written at ascending addresses from `a` (20_memory R63). -/
def storeBytes (m : List Host.Cell) (a : Nat) : List Byte → List Host.Cell
  | [] => m
  | b :: bs => storeBytes (memWrite m a b) (a + 1) bs

/-- `n` bytes read at ascending addresses from `a` (20_memory R63). -/
def loadBytes (m : List Host.Cell) (a n : Nat) : List Byte :=
  (List.range n).map (fun j => memRead m (a + j))

/-- The canonical form: addresses strictly rising and within memory, no entry equal to the reset content. -/
abbrev Memory.wf (m : List Host.Cell) : Prop :=
  m.Pairwise (fun c d => c.1 < d.1) ∧ ∀ c ∈ m, c.1 ≤ Config.addrMax ∧ c.2 ≠ resetByte c.1

/-- The bounds check of 20_memory R64 on the range of `n` bytes at `a`: an empty range is never checked, and nothing wraps. -/
def rangeOk (a n : Nat) : Bool := n = 0 || a + n - 1 ≤ Config.addrMax

/-- The byte at an address in a state. -/
def State.byte (s : State) (a : Nat) : Byte := memRead s.mem a

/-- Bytes stored at ascending addresses in a state. -/
def State.store (s : State) (a : Nat) (bs : List Byte) : State := { s with mem := storeBytes s.mem a bs }

/-! ## Registers (10_state) -/

/-- `V[r]` (00_scope R10). -/
def State.reg (s : State) (r : Reg) : Byte := s.v[r]

/-- `V[r] <- b` (00_scope R10); no register is hardwired (10_state R22). -/
def State.setReg (s : State) (r : Reg) (b : Byte) : State := { s with v := s.v.set r b }

/-- `I <- w` (00_scope R10). -/
def State.setI (s : State) (w : Word) : State := { s with i := w }

/-- `pc <- target` (00_scope R10). -/
def State.setPc (s : State) (a : Addr) : State := { s with pc := a }

/-- `DT <- b` (00_scope R10). -/
def State.setDt (s : State) (b : Byte) : State := { s with dt := b }

/-- `ST <- b` (00_scope R10). -/
def State.setSt (s : State) (b : Byte) : State := { s with st := b }

/-- `run <- r`. -/
def State.setRun (s : State) (r : RunState) : State := { s with run := r }

/-- The flag register VF (10_state R23). -/
def vf : Reg := 15

/-- All registers (and all keys) in ascending order. -/
def indices : List (Fin 16) := [0, 1, 2, 3, 4, 5, 6, 7, 8, 9, 10, 11, 12, 13, 14, 15]

/-! ## Faults (60_exceptions) -/

/-- The numeric code of a fault kind (60_exceptions R350). -/
def faultCode : FaultKind → Nat
  | .stackOverflow => 1
  | .stackUnderflow => 2
  | .decodeError => 3
  | .addressOverflow => 4
  | .keyIndexError => 5

/-- `raise Fault(kind, addr, word)` (60_exceptions R360): the record is set and the engine stops. Nothing else changes;
there is no handler and no return (R363). -/
def State.raise (s : State) (kind : FaultKind) (addr : Addr) (word : Word) : State :=
  { s with run := .faulted, fault := some ⟨kind, faultCode kind, addr, word⟩ }

/-- A fault raised in the execute phase of `i`: the pc is already A + 2 (40_engine_cycle R103), so A is pc - 2, and the
word is the instruction's one word (30_encoding R90; assumption log 4). -/
def raiseIn (kind : FaultKind) (i : Instr) (s : State) : Result :=
  .next (s.raise kind (s.pc - 2#12) (encode i))

/-! ## The pc and the stack (40_engine_cycle, 41_flow) -/

/-- Whether a pc adjustment to `target` would pass `ADDR_MAX` (00_scope R6, `PC_OVERFLOW` = Fault; assumption log 8). -/
def pcPasses (target : Nat) : Bool := Config.addrMax < target

/-- The advance of a conditional skip (40_engine_cycle R104): 2 more when the condition holds. -/
def skipIf (c : Bool) (i : Instr) (s : State) : Result :=
  if c then
    if pcPasses (s.pc.toNat + 2) then raiseIn .addressOverflow i s
    else .next (s.setPc (s.pc + 2#12))
  else .next s

/-- `push(v)` (41_flow R131); none when sp = 16. -/
def push (a : Addr) (s : State) : Option State :=
  if h : s.sp.val < Config.stackDepth then
    some { s with stack := s.stack.set s.sp.val a, sp := ⟨s.sp.val + 1, Nat.succ_lt_succ h⟩ }
  else none

/-- `pop()` (41_flow R132): the popped address and the state after, the slot keeping its value; none when sp = 0. -/
def pop (s : State) : Option (Addr × State) :=
  if h : 0 < s.sp.val then
    some (s.stack[s.sp.val - 1], { s with sp := ⟨s.sp.val - 1, by omega⟩ })
  else none

end Sys2Proof.Machine
end

