-- ==== Sys2Proof/Machine/Flags.lean ====
section
/-! DEFINITION. Every flag computation: the values VF receives, and the order of writing result and flag (42_alu R170). -/

namespace Sys2Proof.Machine

/-- A condition as a flag byte, 1 or 0. -/
def flagOf (c : Bool) : Byte := if c then 1#8 else 0#8

/-- 8XY4: the carry out of bit 7 (42_alu R195). -/
def carryFlag (x y : Byte) : Byte := flagOf (255 < x.toNat + y.toNat)

/-- 8XY5 and, with its operands exchanged, 8XY7: 1 when `x - y` needs no borrow (42_alu R200, R206). -/
def noBorrowFlag (x y : Byte) : Byte := flagOf (y.toNat ≤ x.toNat)

/-- 8XY6: the bit shifted out on the right (42_alu R203). -/
def lowBitFlag (y : Byte) : Byte := flagOf (y.getLsbD 0)

/-- 8XYE: the bit shifted out on the left (42_alu R209). -/
def highBitFlag (y : Byte) : Byte := flagOf (y.getLsbD 7)

/-- `FX1E_VF_NO_OVERFLOW` takes the value Clear (00_scope R6, 92_eei_decisions D3; assumption log 7). -/
def fx1eVfNoOverflow : Config.NoOverflowVf := .clear

/-- FX1E's VF from the unbounded sum and the old VF, under either value of the parameter (43_index_memory R225). -/
def indexFlag (p : Config.NoOverflowVf) (sum : Nat) (old : Byte) : Byte :=
  if Config.addrMax < sum then 1#8
  else
    match p with
    | .clear => 0#8
    | .keep => old

/-- `LOGIC_RESETS_VF` takes the value false (00_scope R6, 92_eei_decisions D5; assumption log 7). -/
def logicResetsVf : Bool := false

/-- The result to VX first, the flag to VF last, so that with X = F the flag stays (42_alu R170). -/
def State.setResultFlag (s : State) (x : Reg) (r flag : Byte) : State := (s.setReg x r).setReg vf flag

/-- The result of 8XY1 to 8XY3, under either value of `LOGIC_RESETS_VF` (42_alu R183; 00_scope R6). With the value false,
which is this hardware's, VF is written only as the destination. DESIGN CHOICE, safe (assumption log 24): under the
alternative true with X = F the spec gives no order of VF := 0 against the result, and the 0 is written last here. -/
def State.setLogicResult (s : State) (resetsVf : Bool) (x : Reg) (r : Byte) : State :=
  if resetsVf then s.setResultFlag x r 0#8 else s.setReg x r

end Sys2Proof.Machine
end

