-- ==== Sys2Proof/Machine/Operands.lean ====
section
/-! DEFINITION. Operand forms that are more than a register or a field: the shift source, the register range of FX55 and
FX65, the decimal digits of FX33, the glyph address of FX29, the sprite of DXYN and its origin. -/

namespace Sys2Proof.Machine

/-- `SHIFT_SRC` takes the value VY (00_scope R6, 92_eei_decisions D5; assumption log 7). -/
def shiftSrc : Config.ShiftSrc := .vy

/-- The byte 8XY6 and 8XYE shift, under either value of the parameter (42_alu R203, R209). -/
def shiftOperand (p : Config.ShiftSrc) (x y : Reg) (s : State) : Byte :=
  match p with
  | .vy => s.reg y
  | .vx => s.reg x

/-- The registers V0..VX (43_index_memory R245, R250). -/
def regsUpTo (x : Reg) : List Reg := indices.take (x.val + 1)

/-- The bytes FX55 stores: V0..VX (43_index_memory R245). -/
def regBytes (x : Reg) (s : State) : List Byte := (regsUpTo x).map s.reg

/-- The registers after FX65's loads from `a` (43_index_memory R250): each V[j] of the list from address a + j. -/
def loadRegs (a : Nat) (s : State) (rs : List Reg) : State :=
  rs.foldl (fun t j => t.setReg j (s.byte (a + j.val))) s

/-- The three decimal digits of a byte, hundreds first (43_index_memory R240). -/
def decimalDigits (b : Byte) : List Byte :=
  [BitVec.ofNat 8 (b.toNat / 100), BitVec.ofNat 8 (b.toNat / 10 % 10), BitVec.ofNat 8 (b.toNat % 10)]

/-- The address FX29 puts in I, not masked to a nibble (43_index_memory R230). -/
def glyphAddress (b : Byte) : Word := BitVec.ofNat 16 (b.toNat * Config.glyphBytes)

/-- The sprite's origin column (44_display R265): only the origin wraps. -/
def originX (b : Byte) : Nat := b.toNat % Config.fbWidth

/-- The sprite's origin row (44_display R265). -/
def originY (b : Byte) : Nat := b.toNat % Config.fbHeight

/-- The I register after FX55 and FX65 (43_index_memory R245, R250): I + X + 1. -/
def indexAfter (x : Reg) (s : State) : Word := BitVec.ofNat 16 (s.i.toNat + x.val + 1)

end Sys2Proof.Machine
end

