-- ==== Sys2Proof/Machine/Alu.lean ====
section
/-! DEFINITION. Register and arithmetic instructions (42_alu). Operands are read before any write; a flag is written last
(R170). -/

namespace Sys2Proof.Machine

/-- 6XNN `LD Vx, nn` (42_alu R172). -/
def execLdImm (x : Reg) (nn : Byte) (s : State) : Result := .next (s.setReg x nn)

/-- 7XNN `ADD Vx, nn` (42_alu R175): wraps, no flag. -/
def execAddImm (x : Reg) (nn : Byte) (s : State) : Result := .next (s.setReg x (s.reg x + nn))

/-- 8XY0 `LD Vx, Vy` (42_alu R180). -/
def execLdReg (x y : Reg) (s : State) : Result := .next (s.setReg x (s.reg y))

/-- 8XY1 `OR Vx, Vy` (42_alu R183). -/
def execOrReg (x y : Reg) (s : State) : Result := .next (s.setLogicResult logicResetsVf x (s.reg x ||| s.reg y))

/-- 8XY2 `AND Vx, Vy` (42_alu R186). -/
def execAndReg (x y : Reg) (s : State) : Result := .next (s.setLogicResult logicResetsVf x (s.reg x &&& s.reg y))

/-- 8XY3 `XOR Vx, Vy` (42_alu R189). -/
def execXorReg (x y : Reg) (s : State) : Result := .next (s.setLogicResult logicResetsVf x (s.reg x ^^^ s.reg y))

/-- 8XY4 `ADD Vx, Vy` (42_alu R195). -/
def execAddReg (x y : Reg) (s : State) : Result :=
  .next (s.setResultFlag x (s.reg x + s.reg y) (carryFlag (s.reg x) (s.reg y)))

/-- 8XY5 `SUB Vx, Vy` (42_alu R200). -/
def execSubReg (x y : Reg) (s : State) : Result :=
  .next (s.setResultFlag x (s.reg x - s.reg y) (noBorrowFlag (s.reg x) (s.reg y)))

/-- 8XY6 `SHR Vx, Vy` (42_alu R203). -/
def execShr (x y : Reg) (s : State) : Result :=
  let b := shiftOperand shiftSrc x y s
  .next (s.setResultFlag x (b >>> 1) (lowBitFlag b))

/-- 8XY7 `SUBN Vx, Vy` (42_alu R206). -/
def execSubn (x y : Reg) (s : State) : Result :=
  .next (s.setResultFlag x (s.reg y - s.reg x) (noBorrowFlag (s.reg y) (s.reg x)))

/-- 8XYE `SHL Vx, Vy` (42_alu R209). -/
def execShl (x y : Reg) (s : State) : Result :=
  let b := shiftOperand shiftSrc x y s
  .next (s.setResultFlag x (b <<< 1) (highBitFlag b))

/-- CXNN `RND Vx, nn` (42_alu R215): a random byte, a free value of its own for each execution (00_scope R7). -/
def execRnd (x : Reg) (nn : Byte) (s : State) : Result :=
  .next { s.setReg x (Config.rnd s.draws &&& nn) with draws := s.draws + 1 }

end Sys2Proof.Machine
end

