-- ==== Sys2Proof/Machine/Display.lean ====
section
/-! DEFINITION. Display instructions and the sprite engine (44_display). -/

namespace Sys2Proof.Machine

/-- The pixel buffer with every cell off (44_display R260). -/
def blankBuffer : PixelBuffer := Vector.replicate 32 (Vector.replicate 64 false)

/-- What the sprite engine carries from cell to cell: the buffer and whether a cell has collided (44_display R265 `FB`, `c`). -/
structure Canvas where
  fb : PixelBuffer
  collided : Bool
  deriving DecidableEq, Repr

/-- One sprite bit of 1 at column `x`, row `y`: clipped outside the buffer, else XORed, colliding when the cell was lit
(44_display R265, R266, R267). -/
def plot (x y : Nat) (c : Canvas) : Canvas :=
  if h : x < 64 ∧ y < 32 then
    { fb := c.fb.set y ((c.fb[y]'h.2).set x (!(c.fb[y]'h.2)[x])),
      collided := c.collided || (c.fb[y]'h.2)[x] }
  else c

/-- The sprite bit of column `col` of a row byte: bit 7 is column 0 (44_display R267). PRESUMED by the spec, unsafe
(assumption log 9). -/
def spriteBit (row : Byte) (col : Nat) : Bool := row.getLsbD (7 - col)

/-- The eight columns of one sprite row (44_display R265). -/
def drawRow (row : Byte) (x0 y : Nat) (c : Canvas) : Canvas :=
  (List.range 8).foldl (fun d col => if spriteBit row col then plot (x0 + col) y d else d) c

/-- The rows of a sprite from row `y` down; no row wraps (44_display R265). -/
def drawRows : List Byte → Nat → Nat → Canvas → Canvas
  | [], _, _, c => c
  | row :: rest, x0, y, c => drawRows rest x0 (y + 1) (drawRow row x0 y c)

/-- 00E0 `CLS` (44_display R260). -/
def execCls (s : State) : Result := .next { s with fb := blankBuffer, redraw := true }

/-- The canvas after DXYN's sprite of `n` rows is drawn (44_display R265). -/
def drawnCanvas (x y : Reg) (n : Nat) (s : State) : Canvas :=
  drawRows (loadBytes s.mem s.i.toNat n) (originX (s.reg x)) (originY (s.reg y)) ⟨s.fb, false⟩

/-- DXYN `DRW Vx, Vy, n` (44_display R265): the whole range is checked, clipped rows too; VF is written last. -/
def execDrw (x y : Reg) (n : Nat) (s : State) : Result :=
  if rangeOk s.i.toNat n then
    let c := drawnCanvas x y n s
    .next { s.setReg vf (flagOf c.collided) with fb := c.fb, redraw := true }
  else raiseIn .addressOverflow (.drw x y n) s

end Sys2Proof.Machine
end

