-- ==== Sys2Proof/Machine/Flow.lean ====
section
/-! DEFINITION. Control flow and stack (41_flow). Every meaning runs with pc = A + 2 (40_engine_cycle R103). -/

namespace Sys2Proof.Machine

/-- 00EE `RET` (41_flow R135). -/
def execRet (s : State) : Result :=
  match pop s with
  | some (a, t) => .next (t.setPc a)
  | none => raiseIn .stackUnderflow .ret s

/-- 1NNN `JP nnn` (41_flow R140). -/
def execJp (nnn : Addr) (s : State) : Result := .next (s.setPc nnn)

/-- 2NNN `CALL nnn` (41_flow R145): the pushed pc is A + 2. -/
def execCall (nnn : Addr) (s : State) : Result :=
  match push s.pc s with
  | some t => .next (t.setPc nnn)
  | none => raiseIn .stackOverflow (.call nnn) s

/-- 3XNN `SE Vx, nn` (41_flow R150). -/
def execSeImm (x : Reg) (nn : Byte) (s : State) : Result := skipIf (s.reg x == nn) (.seImm x nn) s

/-- 4XNN `SNE Vx, nn` (41_flow R152). -/
def execSneImm (x : Reg) (nn : Byte) (s : State) : Result := skipIf (s.reg x != nn) (.sneImm x nn) s

/-- 5XY0 `SE Vx, Vy` (41_flow R154). -/
def execSeReg (x y : Reg) (s : State) : Result := skipIf (s.reg x == s.reg y) (.seReg x y) s

/-- 9XY0 `SNE Vx, Vy` (41_flow R156). -/
def execSneReg (x y : Reg) (s : State) : Result := skipIf (s.reg x != s.reg y) (.sneReg x y) s

/-- BNNN `JP V0, nnn` (41_flow R160): the target is never wrapped. -/
def execJpV0 (nnn : Addr) (s : State) : Result :=
  let t := nnn.toNat + (s.reg 0).toNat
  if pcPasses t then raiseIn .addressOverflow (.jpV0 nnn) s else .next (s.setPc (BitVec.ofNat 12 t))

end Sys2Proof.Machine
end

