-- ==== Sys2Proof/Machine/IndexMemory.lean ====
section
/-! DEFINITION. Index register and memory instructions (43_index_memory). A range that passes 0xFFF raises AddressOverflow
before any byte moves (20_memory R64). -/

namespace Sys2Proof.Machine

/-- ANNN `LD I, nnn` (43_index_memory R220). -/
def execLdI (nnn : Addr) (s : State) : Result := .next (s.setI (nnn.setWidth 16))

/-- FX1E `ADD I, Vx` (43_index_memory R225): wraps at 2^16, never faults, VF last. -/
def execAddI (x : Reg) (s : State) : Result :=
  let sum := s.i.toNat + (s.reg x).toNat
  .next ((s.setI (BitVec.ofNat 16 sum)).setReg vf (indexFlag fx1eVfNoOverflow sum (s.reg vf)))

/-- FX29 `LD F, Vx` (43_index_memory R230). -/
def execLdF (x : Reg) (s : State) : Result := .next (s.setI (glyphAddress (s.reg x)))

/-- FX33 `LD B, Vx` (43_index_memory R240). -/
def execLdB (x : Reg) (s : State) : Result :=
  if rangeOk s.i.toNat 3 then .next (s.store s.i.toNat (decimalDigits (s.reg x)))
  else raiseIn .addressOverflow (.ldB x) s

/-- FX55 `LD [I], Vx` (43_index_memory R245). -/
def execLdMemVx (x : Reg) (s : State) : Result :=
  if rangeOk s.i.toNat (x.val + 1) then .next ((s.store s.i.toNat (regBytes x s)).setI (indexAfter x s))
  else raiseIn .addressOverflow (.ldMemVx x) s

/-- FX65 `LD Vx, [I]` (43_index_memory R250). -/
def execLdVxMem (x : Reg) (s : State) : Result :=
  if rangeOk s.i.toNat (x.val + 1) then .next ((loadRegs s.i.toNat s (regsUpTo x)).setI (indexAfter x s))
  else raiseIn .addressOverflow (.ldVxMem x) s

end Sys2Proof.Machine
end

