-- ==== Sys2Proof/Machine/Keypad.lean ====
section
/-! DEFINITION. Keypad instructions and the key wait (45_keypad). -/

namespace Sys2Proof.Machine

/-- A register's value as a key number; none above 0xF (45_keypad R290). -/
def keyOf (b : Byte) : Option Key := if h : b.toNat < 16 then some ⟨b.toNat, h⟩ else none

/-- EX9E `SKP Vx` (45_keypad R290): the key index is checked before the skip bound (40_engine_cycle R109). -/
def execSkp (x : Reg) (s : State) : Result :=
  match keyOf (s.reg x) with
  | some k => skipIf s.key[k] (.skp x) s
  | none => raiseIn .keyIndexError (.skp x) s

/-- EXA1 `SKNP Vx` (45_keypad R293). -/
def execSknp (x : Reg) (s : State) : Result :=
  match keyOf (s.reg x) with
  | some k => skipIf (!s.key[k]) (.sknp x) s
  | none => raiseIn .keyIndexError (.sknp x) s

/-- FX0A `LD Vx, K` (45_keypad R296): the engine waits, with the keys pressed now as its mask; VX is not written here. -/
def execLdVxK (x : Reg) (s : State) : Result := .next (s.setRun (.waitKey x s.key))

/-- The lowest key that was pressed in `mask` and is not pressed now (45_keypad R300, R301). -/
def releasedKey (mask now : Keys) : Option Key := indices.find? (fun k => mask[k] && !now[k])

/-- The key-wait sample (45_keypad R300): nothing is fetched, the pc stays. -/
def keyWaitSample (x : Reg) (mask : Keys) (s : State) : State :=
  match releasedKey mask s.key with
  | some k => (s.setReg x (BitVec.ofNat 8 k.val)).setRun .running
  | none => s.setRun (.waitKey x s.key)

end Sys2Proof.Machine
end

