-- ==== Sys2Proof/Machine/Timers.lean ====
section
/-! DEFINITION. Timer instructions and the timer unit (46_timers). -/

namespace Sys2Proof.Machine

/-- FX07 `LD Vx, DT` (46_timers R322). -/
def execLdVxDt (x : Reg) (s : State) : Result := .next (s.setReg x s.dt)

/-- FX15 `LD DT, Vx` (46_timers R325). -/
def execLdDtVx (x : Reg) (s : State) : Result := .next (s.setDt (s.reg x))

/-- FX18 `LD ST, Vx` (46_timers R328). -/
def execLdStVx (x : Reg) (s : State) : Result := .next (s.setSt (s.reg x))

/-- One counter's part of a tick: down by 1, clamped at 0 (46_timers R330). -/
def countDown (b : Byte) : Byte := if b = 0#8 then 0#8 else b - 1#8

/-- `step_timer` (46_timers R330): both counters in the same atomic tick. -/
def tick (s : State) : State := { s with dt := countDown s.dt, st := countDown s.st }

end Sys2Proof.Machine
end

