-- ==== Sys2Proof/Machine/HostOps.lean ====
section
/-! DEFINITION. The host's operations on the core (10_state R41) that are no step of the engine or the timer unit. -/

namespace Sys2Proof.Machine

/-- `LOAD_LIMIT`: the loader stops before this address (00_scope R6; assumption log 10). -/
def loadLimit : Nat := 0xEA0

/-- `load(bytes)` (70_reset_and_hazards R392): the image from 0x200 up to the limit, the excess dropped. -/
def State.load (s : State) (bytes : List Byte) : State :=
  (s.store Config.progBase (bytes.take (loadLimit - Config.progBase))).setPc (BitVec.ofNat 12 Config.progBase)

/-- `init()` (70_reset_and_hazards R390) with the parameter `FONT` an argument (R403, 92_eei_decisions D19): the font is
preloaded at `FONT_BASE`, and every other field and byte is as `State.reset` has it, which is `init` with the default. -/
def State.init (f : Font := defaultFont) : State := State.reset.store Config.fontBase f.toList

/-- `launch(s, bytes)` (70_reset_and_hazards R395): the state `init`, with the font given, then `load` produce. -/
def launch (bytes : List Byte) (f : Font := defaultFont) : State := (State.init f).load bytes

/-- `set_key(k, b)` (10_state R42). -/
def State.pressKey (s : State) (k : Key) (pressed : Bool) : State := { s with key := s.key.set k pressed }

/-- `clear_redraw` (10_state R44). -/
def State.clearRedraw (s : State) : State := { s with redraw := false }

/-- `sound_active` (10_state R45). -/
def State.soundActive (s : State) : Bool := s.st != 0#8

end Sys2Proof.Machine
end

