-- ==== Sys2Proof/Machine/Engine.lean ====
section
/-! DEFINITION. The fetch-decode-execute cycle (40_engine_cycle) and the choice of the next atomic step (R101). -/

namespace Sys2Proof.Machine

/-- `fetch(A)` at A = pc (40_engine_cycle R102): none when the advance would pass 0xFFF. -/
def fetch (s : State) : Option Word :=
  if pcPasses (s.pc.toNat + 2) then none
  else some (joinBytes (s.byte s.pc.toNat) (s.byte (s.pc.toNat + 1)))

/-- The advance after a successful fetch, before decode (40_engine_cycle R103). -/
def State.advance (s : State) : State := s.setPc (s.pc + 2#12)

/-- The running engine's step: fetch, advance, decode, execute, each with its fault (40_engine_cycle R100, R105, R109). -/
def runInstruction (s : State) : Result :=
  match fetch s with
  | none => .next (s.raise .addressOverflow s.pc 0x0000#16)
  | some w =>
    match decodeWord w with
    | .ok i => exec i s.advance
    | .error _ => .next (s.advance.raise .decodeError s.pc w)

/-- `step_instruction` (40_engine_cycle R100). -/
def stepInstruction (s : State) : Result :=
  match s.run with
  | .running => runInstruction s
  | .waitKey x mask => .next (keyWaitSample x mask s)
  | .faulted => .fault .faulted

/-- The effect of one event of the agenda (10_state R41). -/
def runEvent (e : Event) (s : State) : Result :=
  match e with
  | .instr => stepInstruction s
  | .tick => .next (tick s)
  | .setKey k pressed => .next (s.pressKey k pressed)
  | .clearRedraw => .next s.clearRedraw
  | .stop => .fault .stopped

/-- The event that comes next, and the agenda after it (assumption log 2). -/
def Agenda.pop : Agenda → Event × Agenda
  | .before e rest => (e, rest)
  | .cycle e [] => (e, .cycle e [])
  | .cycle e (f :: fs) => (e, .cycle f (fs ++ [e]))
  | .free n => (Config.schedule n, .free (n + 1))

/-- The agenda after `n` events. -/
def Agenda.after : Nat → Agenda → Agenda
  | 0, a => a
  | n + 1, a => Agenda.after n a.pop.2

/-- The event that comes after `n` others. -/
def Agenda.event (a : Agenda) (n : Nat) : Event := (a.after n).pop.1

/-- A finite sequence of events, and what comes after it. -/
def Agenda.listed (es : List Event) (rest : Agenda) : Agenda := es.foldr .before rest

/-- One atomic step or host operation: none of any kind once faulted (40_engine_cycle R101, 60_exceptions R362). -/
def takeEvent (e : Event) (s : State) : Result :=
  match s.run with
  | .faulted => .fault .faulted
  | .running => runEvent e s
  | .waitKey _ _ => runEvent e s

/-- A run of the core (40_engine_cycle R101): `k` atomic steps of an infinite sequence of them, which may be any at all. -/
def runUnder : Nat → (Nat → Event) → State → Result
  | 0, _, s => .next s
  | k + 1, sched, s =>
    match takeEvent (sched 0) s with
    | .next t => runUnder k (fun n => sched (n + 1)) t
    | .fault r => .fault r
    | .refused r => .refused r

/-- The next atomic step, as the agenda gives it (40_engine_cycle R101; assumption log 2). -/
def stepAgenda (s : State) : Result := takeEvent s.agenda.pop.1 { s with agenda := s.agenda.pop.2 }

/-- A word stored where the next step fetches, with nothing standing before that fetch: the engine running and an
instruction step next (assumption log 10). It changes only memory in the state after reset. -/
def State.placeWord (s : State) (nbits w : Nat) : State :=
  { s.store s.pc.toNat (wordBytes (BitVec.ofNat 16 (w % 2 ^ nbits))) with run := .running, agenda := .cycle .instr [] }

end Sys2Proof.Machine
end

