-- ==== Sys2Proof/Machine/Step.lean ====
section
/-! DEFINITION. One step of the machine, and the word the host places for a step to fetch. -/

namespace Sys2Proof.Machine

/-- One atomic step of the core (40_engine_cycle R101). -/
def step : State → Host.Outcome State Fault Refusal := stepAgenda

/-- `s` with an instruction stored at the pc, so that `step` fetches and runs exactly it; it stands for a program loaded
from outside (assumption log 10). At pc > 0xFFD no fetch exists (40_engine_cycle R102). -/
def State.withFetchWord (s : State) (nbits w : Nat) : State := s.placeWord nbits w

end Sys2Proof.Machine
end

