-- ==== Sys2Proof/Safety.lean ====
section
/-! DEFINITION. What counts as a good state, and the terms the statements are written in. -/

namespace Sys2Proof.Safety

open Sys2Proof.Machine

/-! ## Good states -/

/-- The fault record and the run state agree: a record is held exactly when the engine is faulted (10_state R33, R48), and
its code is its kind's (60_exceptions R350). -/
def FaultReported (s : State) : Prop :=
  (s.run = .faulted ↔ s.fault ≠ none) ∧ ∀ r, s.fault = some r → r.code = faultCode r.kind

/-- The invariant of the machine: memory in canonical form, and the fault reported as the spec says. -/
def Inv (s : State) : Prop := Memory.wf s.mem ∧ FaultReported s

/-- The end-of-run predicate of 40_engine_cycle R110: the running engine stands at a jump to itself. -/
def AtSelfLoop (s : State) : Prop :=
  s.run = .running ∧ s.pc.toNat ≤ 0xFFD ∧
    joinBytes (s.byte s.pc.toNat) (s.byte (s.pc.toNat + 1)) = 0x1000#16 ||| s.pc.setWidth 16

/-- The next event is an instruction step, and `rest` is the agenda after it. -/
def InstrNext (s : State) (rest : Agenda) : Prop := s.agenda.pop = (.instr, rest)

/-- `k` steps of the machine, stopping at the first that gives no next state. -/
def steps : Nat → State → Result
  | 0, s => .next s
  | k + 1, s =>
    match step s with
    | .next t => steps k t
    | .fault r => .fault r
    | .refused r => .refused r

/-- The schedule is fair to a kind of event: it comes infinitely often (40_engine_cycle R101, for a kind that is enabled in
every state of the run). -/
def FairTo (e : Event) (sched : Nat → Event) : Prop := ∀ n, ∃ m, n ≤ m ∧ sched m = e

/-! ## Encodings -/

/-- The word `i` has, the row it belongs to, and that the decoder reads it back (30_encoding R87, R90). -/
def EncodedAs (i : Instr) (value mask w : Word) : Prop :=
  encode i = w ∧ rowOf i = ⟨value, mask⟩ ∧ decodeWord w = .ok i

/-! ## What an instruction changes -/

/-- Every byte of memory reads as before. -/
def SameMemory (s t : State) : Prop := ∀ a, t.byte a = s.byte a

/-- Every field but the V registers is as before, memory among them. -/
def OnlyRegisters (s t : State) : Prop := t = { s with v := t.v } ∧ SameMemory s t

/-- `i` answers a next state in which VX is `r`; every other register and every other field is unchanged. -/
def WritesReg (i : Instr) (s : State) (x : Reg) (r : Byte) : Prop :=
  ∃ t, exec i s = .next t ∧ t.reg x = r ∧ (∀ q, q ≠ x → t.reg q = s.reg q) ∧ OnlyRegisters s t

/-- `i` answers a next state in which VF is `flag` and VX, unless it is VF, is `r`; every other register and every other
field is unchanged. -/
def WritesRegAndFlag (i : Instr) (s : State) (x : Reg) (r flag : Byte) : Prop :=
  ∃ t, exec i s = .next t ∧ t.reg 15 = flag ∧ (x ≠ 15 → t.reg x = r) ∧
    (∀ q, q ≠ x → q ≠ 15 → t.reg q = s.reg q) ∧ OnlyRegisters s t

/-- `i` answers the faulted state of 60_exceptions R360: the record holds the kind, its code, the instruction's address
pc - 2 (the pc is A + 2 in the execute phase; log 4) and its word; everything else is unchanged. -/
def FaultsWith (i : Instr) (s : State) (kind : FaultKind) (code : Nat) : Prop :=
  exec i s = .next { s with run := .faulted, fault := some ⟨kind, code, s.pc - 2#12, encode i⟩ }

/-- `i` skips exactly when `c` holds (40_engine_cycle R104): the pc goes on by 2 and nothing else changes; a taken skip past
0xFFF faults. -/
def SkipsWhen (i : Instr) (s : State) (c : Prop) : Prop :=
  (¬ c → exec i s = .next s) ∧
  (c → s.pc.toNat + 2 ≤ 0xFFF → exec i s = .next { s with pc := s.pc + 2#12 }) ∧
  (c → 0xFFF < s.pc.toNat + 2 → FaultsWith i s .addressOverflow 4)

/-- Whether DXYN's sprite has a 1 bit on cell (cx, cy): the origin wraps, the cells do not, and bit 7 of a row byte is its
leftmost column (44_display R265, R267). -/
def SpriteOn (s : State) (x y : Reg) (n cx cy : Nat) : Prop :=
  let x0 := (s.reg x).toNat % 64
  let y0 := (s.reg y).toNat % 32
  x0 ≤ cx ∧ cx < x0 + 8 ∧ y0 ≤ cy ∧ cy < y0 + n ∧
    (s.byte (s.i.toNat + (cy - y0))).getLsbD (7 - (cx - x0)) = true

/-- The byte at address `a` once FX55 has stored V0..VX at I..I + X (43_index_memory R245). -/
def byteAfterRegisters (x : Reg) (s : State) (a : Nat) : Byte :=
  if h : s.i.toNat ≤ a ∧ a ≤ s.i.toNat + x.val then s.reg ⟨a - s.i.toNat, by have := x.isLt; omega⟩ else s.byte a

/-- The byte at address `a` once FX33 has stored the decimal digits of VX at I, I + 1 and I + 2 (43_index_memory R240). -/
def byteAfterDigits (x : Reg) (s : State) (a : Nat) : Byte :=
  if a = s.i.toNat then BitVec.ofNat 8 ((s.reg x).toNat / 100)
  else if a = s.i.toNat + 1 then BitVec.ofNat 8 ((s.reg x).toNat / 10 % 10)
  else if a = s.i.toNat + 2 then BitVec.ofNat 8 ((s.reg x).toNat % 10)
  else s.byte a

/-- A function applied to the next state of an outcome. -/
def mapNext (f : State → State) : Result → Result
  | .next t => .next (f t)
  | .fault r => .fault r
  | .refused r => .refused r

end Sys2Proof.Safety
end

