-- ==== Sys2Proof/Certificates/Slice0/Obligations.lean ====
section
/-! DEFINITION. The statements for the provers. -/

open Sys2Proof Sys2Proof.Machine Sys2Proof.Safety

/-! ## Encoding (30_encoding) -/

/-- A few words written out from the table decode to their instructions (30_encoding R87; 95_test_vectors E15). -/
def Obligations.KnownWordsDecode : Prop :=
  decodeWord 0x00E0#16 = .ok .cls ∧ decodeWord 0x00EE#16 = .ok .ret ∧ decodeWord 0x1234#16 = .ok (.jp 0x234#12) ∧
  decodeWord 0x5120#16 = .ok (.seReg 1 2) ∧ decodeWord 0x8FFE#16 = .ok (.shl 15 15) ∧
  decodeWord 0xD123#16 = .ok (.drw 1 2 3) ∧ decodeWord 0xEF9E#16 = .ok (.skp 15) ∧
  decodeWord 0xFF65#16 = .ok (.ldVxMem 15) ∧ decodeWord 0x800F#16 = .error .family8 ∧
  decodeWord 0x0000#16 = .error .family0

/-- Decoding the word of any well-formed instruction gives the instruction back (30_encoding R87, R90). -/
def Obligations.DecodeOfEncodeIsTheInstruction : Prop :=
  ∀ i : Instr, WellFormed i = true → decodeWord (encode i) = .ok i

/-- Any word the decoder accepts is the one word of the instruction it gives, which is well-formed (30_encoding R90). -/
def Obligations.EncodeOfDecodeIsTheWord : Prop :=
  ∀ (w : Word) (i : Instr), decodeWord w = .ok i → encode i = w ∧ WellFormed i = true

/-- The decoder accepts a word exactly when a row of the table selects it, then gives that row's instruction, and no word
selects two rows (30_encoding R87). -/
def Obligations.DecodeFollowsTheOpcodeTable : Prop :=
  opcodeTable.length = 34 ∧
  ∀ w : Word,
    (∀ i, decodeWord w = .ok i → opcodeTable.filter (fun r => rowSelects r w) = [rowOf i]) ∧
    (∀ e, decodeWord w = .error e → opcodeTable.filter (fun r => rowSelects r w) = [])

/-- The words the decoder rejects are exactly the six sets of 30_encoding R86 (the counts aside). -/
def Obligations.IllegalWordsAreTheListedSets : Prop :=
  ∀ w : Word, (∃ e, decodeWord w = .error e) ↔
    ((n1Field w = 0x0#4 ∧ w ≠ 0x00E0#16 ∧ w ≠ 0x00EE#16) ∨
     (n1Field w = 0x5#4 ∧ nField w ≠ 0#4) ∨
     (n1Field w = 0x8#4 ∧ nField w ∈ [0x8#4, 0x9#4, 0xA#4, 0xB#4, 0xC#4, 0xD#4, 0xF#4]) ∨
     (n1Field w = 0x9#4 ∧ nField w ≠ 0#4) ∨
     (n1Field w = 0xE#4 ∧ nnField w ∉ [0x9E#8, 0xA1#8]) ∨
     (n1Field w = 0xF#4 ∧
       nnField w ∉ [0x07#8, 0x0A#8, 0x15#8, 0x18#8, 0x1E#8, 0x29#8, 0x33#8, 0x55#8, 0x65#8]))

/-! ## The engine cycle (40_engine_cycle) and faults (60_exceptions) -/

/-- A step of the running engine whose bytes at the pc decode is the execution of that instruction at the state whose pc is
past its word; the word is big-endian (20_memory R62, 40_engine_cycle R103). The agenda is the model's own (log 2). -/
def Obligations.StepRunsTheDecodedInstruction : Prop :=
  ∀ (s : State) (rest : Agenda) (i : Instr),
    s.run = .running → InstrNext s rest → s.pc.toNat ≤ 0xFFD →
    decodeWord (s.byte s.pc.toNat ++ s.byte (s.pc.toNat + 1)) = .ok i →
    step s = exec i { s with pc := s.pc + 2#12, agenda := rest } ∧ (s.pc + 2#12).toNat = s.pc.toNat + 2

/-- Fetch reads the two bytes at the pc, even or odd, below 0xFFE; at 0xFFE and 0xFFF the step raises AddressOverflow with
word 0 and the pc stays (40_engine_cycle R102). -/
def Obligations.FetchReadsTwoBytesOrFaults : Prop :=
  ∀ s : State,
    (s.pc.toNat ≤ 0xFFD → fetch s = some (s.byte s.pc.toNat ++ s.byte (s.pc.toNat + 1))) ∧
    (0xFFD < s.pc.toNat → fetch s = none ∧
      ∀ rest, s.run = .running → InstrNext s rest →
        step s = .next { s with agenda := rest, run := .faulted,
                                fault := some ⟨.addressOverflow, 4, s.pc, 0x0000#16⟩ })

/-- A fetched word that selects one row runs an instruction of that row; a word that selects none raises DecodeError, with
pc = A + 2 and everything else unchanged (40_engine_cycle R105). -/
def Obligations.DecodeSelectsARowOrFaults : Prop :=
  ∀ (s : State) (rest : Agenda) (w : Word),
    s.run = .running → InstrNext s rest → fetch s = some w →
    (∀ r, opcodeTable.filter (fun q => rowSelects q w) = [r] →
      ∃ i, rowOf i = r ∧ encode i = w ∧ step s = exec i { s with pc := s.pc + 2#12, agenda := rest }) ∧
    ((∀ r, opcodeTable.filter (fun q => rowSelects q w) ≠ [r]) →
      step s = .next { s with pc := s.pc + 2#12, agenda := rest, run := .faulted,
                              fault := some ⟨.decodeError, 3, s.pc, w⟩ })

/-- A step that faults leaves everything but the pc, the run state and the record: the pc is A for a fetch fault, whose
recorded word is 0, and A + 2 for any other, whose recorded word is the one fetched; the recorded address is A
(40_engine_cycle R106, 60_exceptions R352, R360). The agenda is the model's own (log 2). -/
def Obligations.FaultingStepIsPrecise : Prop :=
  ∀ (s t : State) (rest : Agenda),
    s.run = .running → InstrNext s rest → step s = .next t → t.run = .faulted →
    ∃ (kind : FaultKind) (word : Word),
      t = { s with pc := t.pc, agenda := rest, run := .faulted,
                   fault := some ⟨kind, faultCode kind, s.pc, word⟩ } ∧
      SameMemory s t ∧
      ((0xFFD < s.pc.toNat ∧ t.pc = s.pc ∧ word = 0x0000#16) ∨
       (s.pc.toNat ≤ 0xFFD ∧ t.pc = s.pc + 2#12 ∧ word = s.byte s.pc.toNat ++ s.byte (s.pc.toNat + 1)))

/-- Once faulted, no step of any kind is taken, whatever the agenda holds (60_exceptions R362). That this covers a host's
set_key too is the model's reading of R362 against 10_state R41 (log 3). -/
def Obligations.FaultedEngineTakesNoStep : Prop :=
  ∀ s : State, s.run = .faulted → step s = .fault .faulted

/-- Every instruction, in every state, answers a next state: the instruction set has no halt, no trap outside the five
faults, and no form the model stops on (40_engine_cycle R107, R110; 60_exceptions R353). -/
def Obligations.EveryInstructionAnswersANextState : Prop :=
  ∀ (i : Instr) (s : State), ∃ t, exec i s = .next t

/-- The machine goes on from every state that is neither faulted nor told to stop (40_engine_cycle R101, R110). The agenda
is the model's own (log 2). -/
def Obligations.StepGoesOnUnlessFaultedOrStopped : Prop :=
  ∀ s : State, s.run ≠ .faulted → s.agenda.pop.1 ≠ .stop → ∃ t, step s = .next t

/-- The running engine at a jump to itself stays as it is, step after step (40_engine_cycle R110; the predicate is the
spec's own convention). -/
def Obligations.SelfLoopLeavesTheStateUnchanged : Prop :=
  ∀ (s : State) (rest : Agenda), AtSelfLoop s → InstrNext s rest → step s = .next { s with agenda := rest }

/-- The invariant holds after reset. -/
def Obligations.ResetMeetsTheInvariant : Prop := Inv State.reset

/-- Every step from a state that meets the invariant gives a state that meets it: memory stays canonical, and a fault
record is held exactly when the engine is faulted (10_state R33, R48; 60_exceptions R350, R360). -/
def Obligations.StepKeepsTheInvariant : Prop :=
  ∀ s t : State, Inv s → step s = .next t → Inv t

/-- The keys reach no instruction but EX9E, EXA1 and FX0A (10_state R32, 40_engine_cycle R108, 45_keypad R296). -/
def Obligations.KeysReachOnlyKeyInstructions : Prop :=
  ∀ (i : Instr) (s : State) (k : Keys),
    (∀ x, i ≠ .skp x ∧ i ≠ .sknp x ∧ i ≠ .ldVxK x) →
    exec i { s with key := k } = mapNext (fun t => { t with key := k }) (exec i s)

/-- The random bytes reach no instruction but CXNN (00_scope R7, 40_engine_cycle R108). The field `draws` is the model's
own (log 1). -/
def Obligations.RandomReachesOnlyRnd : Prop :=
  ∀ (i : Instr) (s : State) (d : Nat),
    (∀ x nn, i ≠ .rnd x nn) →
    exec i { s with draws := d } = mapNext (fun t => { t with draws := d }) (exec i s)

/-! ## Runs of the core (40_engine_cycle R101) -/

/-- The machine's steps from any state are the run of the core under the infinite sequence its agenda gives, and nothing but
the agenda tells them apart; an instruction cannot tell which atomic steps are to come, and changes none of them
(40_engine_cycle R101, R108). The agenda is the model's own (log 2). -/
def Obligations.StepsFollowTheAgenda : Prop :=
  (∀ (k : Nat) (s : State),
    steps k s = mapNext (fun t => { t with agenda := s.agenda.after k }) (runUnder k s.agenda.event s)) ∧
  ∀ (i : Instr) (s : State) (a : Agenda),
    exec i { s with agenda := a } = mapNext (fun t => { t with agenda := a }) (exec i s)

/-- The agendas give every finite sequence followed by any other, every sequence that repeats, and the free infinite sequence
of `Config.schedule`, of which nothing is known (40_engine_cycle R101; log 2). -/
def Obligations.AgendasGiveEverySequence : Prop :=
  (∀ (es : List Event) (rest : Agenda),
    (∀ (n : Nat) (h : n < es.length), (Agenda.listed es rest).event n = es[n]) ∧
    ∀ n, (Agenda.listed es rest).event (es.length + n) = rest.event n) ∧
  (∀ (e : Event) (es : List Event) (n : Nat), (Agenda.cycle e es).event n =
    (e :: es)[n % (e :: es).length]'(Nat.mod_lt n (Nat.succ_pos es.length))) ∧
  ∀ k n : Nat, (Agenda.free k).event n = Config.schedule (k + n)

/-- From a self-loop, under any infinite sequence of atomic steps without a stop: if ticks come infinitely often, both timers
run out, the engine standing at the loop; if none ever comes, neither timer ever changes (40_engine_cycle R101, R110). The
fairness is the premise R101 says such a claim rests on; the end-of-run predicate is the spec's own convention. -/
def Obligations.TimersRunOutOnlyUnderFairness : Prop :=
  ∀ (sched : Nat → Event) (s : State), AtSelfLoop s → (∀ n, sched n ≠ .stop) →
    (FairTo .tick sched →
      ∃ k t, runUnder k sched s = .next t ∧ AtSelfLoop t ∧ t.dt = 0#8 ∧ t.st = 0#8) ∧
    ((∀ n, sched n ≠ .tick) →
      ∀ k, ∃ t, runUnder k sched s = .next t ∧ AtSelfLoop t ∧ t.dt = s.dt ∧ t.st = s.st)

/-! ## Who may write what (10_state) -/

/-- Only 00E0 and DXYN write the pixel buffer and the redraw flag (10_state R29, R30). -/
def Obligations.OnlyDisplayInstructionsWriteTheScreen : Prop :=
  ∀ (i : Instr) (s t : State), exec i s = .next t →
    i ≠ .cls → (∀ x y n, i ≠ .drw x y n) → t.fb = s.fb ∧ t.redraw = s.redraw

/-- Only 2NNN and 00EE write the stack and its pointer (10_state R26). -/
def Obligations.OnlyCallAndReturnWriteTheStack : Prop :=
  ∀ (i : Instr) (s t : State), exec i s = .next t →
    (∀ nnn, i ≠ .call nnn) → i ≠ .ret → t.stack = s.stack ∧ t.sp = s.sp

/-- Only FX33 and FX55 write memory (10_state R21, 20_memory R61). -/
def Obligations.OnlyStoresWriteMemory : Prop :=
  ∀ (i : Instr) (s t : State), exec i s = .next t →
    (∀ x, i ≠ .ldB x ∧ i ≠ .ldMemVx x) → t.mem = s.mem ∧ ∀ a, t.byte a = s.byte a

/-- Only ANNN, FX1E, FX29, FX55 and FX65 write I; only FX15 writes DT and only FX18 writes ST; nothing an instruction does
writes the keys (10_state R24, R28, R32). -/
def Obligations.OnlyTheirInstructionsWriteIndexAndTimers : Prop :=
  ∀ (i : Instr) (s t : State), exec i s = .next t →
    ((∀ nnn, i ≠ .ldI nnn) → (∀ x, i ≠ .addI x ∧ i ≠ .ldF x ∧ i ≠ .ldMemVx x ∧ i ≠ .ldVxMem x) → t.i = s.i) ∧
    ((∀ x, i ≠ .ldDtVx x) → t.dt = s.dt) ∧ ((∀ x, i ≠ .ldStVx x) → t.st = s.st) ∧ t.key = s.key

/-- Only the jumps, the call, the return and the skips move the pc from A + 2 (10_state R25). -/
def Obligations.OnlyFlowInstructionsMoveThePc : Prop :=
  ∀ (i : Instr) (s t : State), exec i s = .next t →
    (∀ nnn, i ≠ .jp nnn ∧ i ≠ .call nnn ∧ i ≠ .jpV0 nnn) → i ≠ .ret →
    (∀ x nn, i ≠ .seImm x nn ∧ i ≠ .sneImm x nn) → (∀ x y, i ≠ .seReg x y ∧ i ≠ .sneReg x y) →
    (∀ x, i ≠ .skp x ∧ i ≠ .sknp x) → t.pc = s.pc

/-- VF is written only as a flag by 8XY4 to 8XY7, 8XYE, DXYN and FX1E, and otherwise only as the destination an X field
of F names (10_state R23). -/
def Obligations.OnlyFlagInstructionsWriteVfUnnamed : Prop :=
  ∀ (i : Instr) (s t : State), exec i s = .next t →
    (∀ x y, i ≠ .addReg x y ∧ i ≠ .subReg x y ∧ i ≠ .shr x y ∧ i ≠ .subn x y ∧ i ≠ .shl x y) →
    (∀ x y n, i ≠ .drw x y n) → (∀ x, i ≠ .addI x) →
    (∀ nn, i ≠ .ldImm 15 nn ∧ i ≠ .addImm 15 nn ∧ i ≠ .rnd 15 nn) →
    (∀ y, i ≠ .ldReg 15 y ∧ i ≠ .orReg 15 y ∧ i ≠ .andReg 15 y ∧ i ≠ .xorReg 15 y) →
    i ≠ .ldVxDt 15 → i ≠ .ldVxMem 15 → t.reg 15 = s.reg 15

/-- Two canonical memories that read alike at every address are the same data: the model's own representation of
`mem` (10_state R21; log 6). -/
def Obligations.CanonicalMemoryIsDeterminedByItsBytes : Prop :=
  ∀ m k : List Host.Cell, Memory.wf m → Memory.wf k → (∀ a, memRead m a = memRead k a) → m = k

/-- After FX55 or FX33 the next fetch, at any pc that a fetch allows, reads the bytes stored where they were stored and the
old bytes elsewhere (20_memory R71, R62). R71 is the spec's own inference ("derived: from rule R62, rule R69 and rule R103"). -/
def Obligations.StoredBytesAreFetched : Prop :=
  ∀ (x : Reg) (s : State) (a : Addr), a.toNat ≤ 0xFFD →
    (s.i.toNat + x.val ≤ 0xFFF → ∃ t, exec (.ldMemVx x) s = .next t ∧
      fetch { t with pc := a } = some (byteAfterRegisters x s a.toNat ++ byteAfterRegisters x s (a.toNat + 1))) ∧
    (s.i.toNat + 2 ≤ 0xFFF → ∃ t, exec (.ldB x) s = .next t ∧
      fetch { t with pc := a } = some (byteAfterDigits x s a.toNat ++ byteAfterDigits x s (a.toNat + 1)))

/-! ## Reset and load (70_reset_and_hazards) -/

/-- What `init` leaves in every field of the record and in every byte of memory, the font byte by byte as 70_reset_and_hazards
R403 lists it (R390). The font's bytes are PRESUMED: the spec takes them from general knowledge (log 5). -/
def Obligations.ResetLeavesTheInitialState : Prop :=
  (∀ a, a < 0x1000 → State.reset.byte a = if a < 80 then font.getD a 0#8 else 0#8) ∧ font.length = 80 ∧
  (List.range 80).map State.reset.byte =
    [0xF0, 0x90, 0x90, 0x90, 0xF0] ++ [0x20, 0x60, 0x20, 0x20, 0x70] ++
    [0xF0, 0x10, 0xF0, 0x80, 0xF0] ++ [0xF0, 0x10, 0xF0, 0x10, 0xF0] ++
    [0x90, 0x90, 0xF0, 0x10, 0x10] ++ [0xF0, 0x80, 0xF0, 0x10, 0xF0] ++
    [0xF0, 0x80, 0xF0, 0x90, 0xF0] ++ [0xF0, 0x10, 0x20, 0x40, 0x40] ++
    [0xF0, 0x90, 0xF0, 0x90, 0xF0] ++ [0xF0, 0x90, 0xF0, 0x10, 0xF0] ++
    [0xF0, 0x90, 0xF0, 0x90, 0x90] ++ [0xE0, 0x90, 0xE0, 0x90, 0xE0] ++
    [0xF0, 0x80, 0x80, 0x80, 0xF0] ++ [0xE0, 0x90, 0x90, 0x90, 0xE0] ++
    [0xF0, 0x80, 0xF0, 0x80, 0xF0] ++ [0xF0, 0x80, 0xF0, 0x80, 0x80] ∧
  (∀ q, State.reset.reg q = 0#8) ∧ State.reset.i = 0#16 ∧ State.reset.pc = 0x200#12 ∧ State.reset.sp = 0 ∧
  (∀ j : Fin 16, State.reset.stack[j] = 0#12) ∧ State.reset.dt = 0#8 ∧ State.reset.st = 0#8 ∧
  (∀ (cy : Fin 32) (cx : Fin 64), State.reset.fb[cy][cx] = false) ∧ (∀ k : Key, State.reset.key[k] = false) ∧
  State.reset.redraw = false ∧ State.reset.run = .running ∧ State.reset.fault = none

/-- `init` preloads whatever font it is given: byte a of it at a, for its 80 bytes, every other byte 0 and every other field
as after reset, which is `init` with the default font; the invariant holds; and FX29 of a digit points at the five bytes of
its glyph (70_reset_and_hazards R403, R390; 43_index_memory R230). The font is the spec's parameter (D19); only the last
clause, through `defaultFont`, rests on the presumed bytes (log 5). -/
def Obligations.InitPreloadsTheGivenFont : Prop :=
  (∀ f : Font,
    (∀ (a : Nat) (h : a < 80), (State.init f).byte a = f[a]) ∧
    (∀ a, 80 ≤ a → a < 0x1000 → (State.init f).byte a = 0#8) ∧
    State.init f = { State.reset with mem := (State.init f).mem } ∧ Inv (State.init f) ∧
    ∀ (x : Reg) (d : Fin 16) (r : Fin 5), ∃ t,
      exec (.ldF x) ((State.init f).setReg x (BitVec.ofNat 8 d.val)) = .next t ∧
      t.byte (t.i.toNat + r.val) = f[d.val * 5 + r.val]'(by simp only [Config.fontBytes]; omega)) ∧
  State.init defaultFont = State.reset

/-- `load` puts byte k of the image at 0x200 + k, for at most 0xCA0 bytes, leaves every other byte and every other field
but the pc, sets the pc to 0x200; and after the launch of an empty image, with any font, the first instruction step
raises DecodeError, whenever it comes next (70_reset_and_hazards R392). The agenda is the model's own (log 2); the load comes from outside (log 10). -/
def Obligations.LoadPlacesTheImage : Prop :=
  (∀ (s : State) (bytes : List Byte),
    (∀ (k : Nat) (h : k < bytes.length), k < 0xCA0 → (s.load bytes).byte (0x200 + k) = bytes[k]) ∧
    (∀ a, a < 0x200 ∨ 0xEA0 ≤ a ∨ 0x200 + bytes.length ≤ a → (s.load bytes).byte a = s.byte a) ∧
    (s.load bytes).pc = 0x200#12 ∧
    s.load bytes = { s with mem := (s.load bytes).mem, pc := (s.load bytes).pc }) ∧
  ∀ (f : Font) (agenda rest : Agenda), InstrNext { launch [] f with agenda := agenda } rest →
    step { launch [] f with agenda := agenda } =
      .next { launch [] f with agenda := rest, pc := 0x202#12, run := .faulted,
                               fault := some ⟨.decodeError, 3, 0x200#12, 0x0000#16⟩ }

/-! ## The timer unit, the host, the key wait -/

/-- A tick takes one from each counter that is not 0, in any run state but Faulted, and changes nothing else
(46_timers R330, R331). -/
def Obligations.TickCountsBothTimersDown : Prop :=
  ∀ (s : State) (rest : Agenda), s.run ≠ .faulted → s.agenda.pop = (.tick, rest) →
    ∃ t, step s = .next t ∧ t.dt.toNat = s.dt.toNat - 1 ∧ t.st.toNat = s.st.toNat - 1 ∧
      t = { s with dt := t.dt, st := t.st, agenda := rest }

/-- The host's writes: set_key writes one key and clear_redraw the redraw flag, and nothing else (10_state R42, R44); stop
ends the run with no next state (R47), which the model says by its own fault `stopped` (its choice: log 22). The agenda is
the model's own (log 2). -/
def Obligations.HostWritesOnlyKeysAndRedraw : Prop :=
  ∀ (s : State) (rest : Agenda), s.run ≠ .faulted →
    (∀ k b, s.agenda.pop = (.setKey k b, rest) →
      ∃ t, step s = .next t ∧ t.key[k] = b ∧ (∀ j : Key, j ≠ k → t.key[j] = s.key[j]) ∧
        t = { s with key := t.key, agenda := rest }) ∧
    (s.agenda.pop = (.clearRedraw, rest) → step s = .next { s with redraw := false, agenda := rest }) ∧
    (s.agenda.pop = (.stop, rest) → step s = .fault .stopped)

/-- The key-wait sample: the lowest key pressed in the mask and now up is loaded and the engine runs again; with no such
key it waits on, with the keys pressed now as its mask. Nothing else changes (45_keypad R300, R301). -/
def Obligations.KeyWaitSampleTakesTheLowestRelease : Prop :=
  ∀ (s : State) (rest : Agenda) (x : Reg) (mask : Keys), s.run = .waitKey x mask → InstrNext s rest →
    (∀ k : Key, mask[k] = true → s.key[k] = false →
      (∀ j : Key, j < k → ¬ (mask[j] = true ∧ s.key[j] = false)) →
      ∃ t, step s = .next t ∧ t.reg x = BitVec.ofNat 8 k.val ∧ (∀ q, q ≠ x → t.reg q = s.reg q) ∧
        t = { s with v := t.v, run := .running, agenda := rest } ∧ SameMemory s t) ∧
    ((∀ k : Key, mask[k] = true → s.key[k] = true) →
      step s = .next { s with run := .waitKey x s.key, agenda := rest })

/-- While the engine waits, a step of any kind changes nothing but: VX, when the wait ends; the run state, to another mask of
the same wait or to running, by an instruction step; a timer, by a tick; a key, by set_key; redraw, cleared by clear_redraw;
and the agenda, by the event taken (45_keypad R302). The agenda, which says the kind of the step, is the model's own (log 2).
R302 is the spec's own inference ("derived: from rule R296, rule R300 and rule R331"). -/
def Obligations.WaitingEngineChangesOnlyItsRegister : Prop :=
  ∀ (s t : State) (x : Reg) (mask : Keys), s.run = .waitKey x mask → step s = .next t →
    t.i = s.i ∧ t.pc = s.pc ∧ t.sp = s.sp ∧ t.stack = s.stack ∧ t.mem = s.mem ∧ t.fb = s.fb ∧
    t.fault = s.fault ∧ t.draws = s.draws ∧ t.agenda = s.agenda.pop.2 ∧
    (t.run = .running ∨ ∃ next, t.run = .waitKey x next) ∧ ((∀ rest, ¬ InstrNext s rest) → t.run = s.run) ∧
    (∀ q, q ≠ x → t.reg q = s.reg q) ∧ (t.run ≠ .running → t.reg x = s.reg x) ∧
    (s.agenda.pop.1 ≠ .tick → t.dt = s.dt ∧ t.st = s.st) ∧
    ((∀ k b, s.agenda.pop.1 ≠ .setKey k b) → t.key = s.key) ∧
    (t.redraw = s.redraw ∨ (t.redraw = false ∧ s.agenda.pop.1 = .clearRedraw))

/-! ## Control flow (41_flow) -/

/-- 1NNN: the pc becomes NNN and nothing else changes (41_flow R140). -/
def Obligations.JumpSetsThePc : Prop :=
  ∀ (nnn : Addr) (s : State),
    EncodedAs (.jp nnn) 0x1000#16 0xF000#16 (0x1000#16 ||| nnn.setWidth 16) ∧
    exec (.jp nnn) s = .next { s with pc := nnn }

/-- 2NNN: the pc, A + 2, is pushed and the pc becomes NNN; with sp = 16, StackOverflow (41_flow R145, R131). -/
def Obligations.CallPushesTheReturnAddress : Prop :=
  ∀ (nnn : Addr) (s : State),
    EncodedAs (.call nnn) 0x2000#16 0xF000#16 (0x2000#16 ||| nnn.setWidth 16) ∧
    (∀ h : s.sp.val < 16, ∃ t, exec (.call nnn) s = .next t ∧ t.pc = nnn ∧ t.sp.val = s.sp.val + 1 ∧
      t.stack[s.sp.val] = s.pc ∧ (∀ j : Fin 16, j.val ≠ s.sp.val → t.stack[j] = s.stack[j]) ∧
      t = { s with pc := nnn, sp := t.sp, stack := t.stack } ∧ SameMemory s t) ∧
    (s.sp.val = 16 → FaultsWith (.call nnn) s .stackOverflow 1)

/-- 00EE: the pc becomes the last pushed address; with sp = 0, StackUnderflow (41_flow R135, R132). That the popped slot,
now at sp, keeps its value is the spec's decision D9 (log 11), on which no other claim should rest. -/
def Obligations.ReturnPopsTheReturnAddress : Prop :=
  EncodedAs .ret 0x00EE#16 0xFFFF#16 0x00EE#16 ∧
  ∀ s : State,
    (∀ h : 0 < s.sp.val, ∃ t, exec .ret s = .next t ∧ t.pc = s.stack[s.sp.val - 1] ∧ t.sp.val = s.sp.val - 1 ∧
      t = { s with pc := t.pc, sp := t.sp } ∧ SameMemory s t) ∧
    (s.sp.val = 0 → FaultsWith .ret s .stackUnderflow 2)

/-- A call and then a return, wherever the return runs, bring back the pc after the call and the stack pointer before it
(41_flow R135, R145; 95_test_vectors S7). -/
def Obligations.ReturnAfterCallRestoresPcAndSp : Prop :=
  ∀ (nnn a : Addr) (s : State), s.sp.val < 16 →
    ∃ t u, exec (.call nnn) s = .next t ∧ exec .ret { t with pc := a } = .next u ∧ u.pc = s.pc ∧ u.sp = s.sp

/-- 3XNN and 4XNN: skip when VX is, or is not, NN (41_flow R150, R152). -/
def Obligations.ImmediateSkips : Prop :=
  ∀ (x : Reg) (nn : Byte) (s : State),
    EncodedAs (.seImm x nn) 0x3000#16 0xF000#16 (0x3000#16 ||| (BitVec.ofNat 16 x.val <<< 8) ||| nn.setWidth 16) ∧
    EncodedAs (.sneImm x nn) 0x4000#16 0xF000#16 (0x4000#16 ||| (BitVec.ofNat 16 x.val <<< 8) ||| nn.setWidth 16) ∧
    SkipsWhen (.seImm x nn) s (s.reg x = nn) ∧ SkipsWhen (.sneImm x nn) s (s.reg x ≠ nn)

/-- 5XY0 and 9XY0: skip when VX is, or is not, VY (41_flow R154, R156). -/
def Obligations.RegisterSkips : Prop :=
  ∀ (x y : Reg) (s : State),
    EncodedAs (.seReg x y) 0x5000#16 0xF00F#16
      (0x5000#16 ||| (BitVec.ofNat 16 x.val <<< 8) ||| (BitVec.ofNat 16 y.val <<< 4)) ∧
    EncodedAs (.sneReg x y) 0x9000#16 0xF00F#16
      (0x9000#16 ||| (BitVec.ofNat 16 x.val <<< 8) ||| (BitVec.ofNat 16 y.val <<< 4)) ∧
    SkipsWhen (.seReg x y) s (s.reg x = s.reg y) ∧ SkipsWhen (.sneReg x y) s (s.reg x ≠ s.reg y)

/-- BNNN: the pc becomes NNN + V0, never wrapped; past 0xFFF, AddressOverflow (41_flow R160). -/
def Obligations.OffsetJumpAddsV0 : Prop :=
  ∀ (nnn : Addr) (s : State),
    EncodedAs (.jpV0 nnn) 0xB000#16 0xF000#16 (0xB000#16 ||| nnn.setWidth 16) ∧
    (nnn.toNat + (s.reg 0).toNat ≤ 0xFFF → ∃ t, exec (.jpV0 nnn) s = .next t ∧
      t.pc.toNat = nnn.toNat + (s.reg 0).toNat ∧ t = { s with pc := t.pc } ∧ SameMemory s t) ∧
    (0xFFF < nnn.toNat + (s.reg 0).toNat → FaultsWith (.jpV0 nnn) s .addressOverflow 4)

/-! ## Registers and arithmetic (42_alu) -/

/-- 6XNN, 7XNN and 8XY0: VX becomes NN, VX + NN mod 256 with no flag, or VY (42_alu R172, R175, R180). -/
def Obligations.LoadsAndImmediateAdd : Prop :=
  ∀ (x y : Reg) (nn : Byte) (s : State),
    EncodedAs (.ldImm x nn) 0x6000#16 0xF000#16 (0x6000#16 ||| (BitVec.ofNat 16 x.val <<< 8) ||| nn.setWidth 16) ∧
    EncodedAs (.addImm x nn) 0x7000#16 0xF000#16 (0x7000#16 ||| (BitVec.ofNat 16 x.val <<< 8) ||| nn.setWidth 16) ∧
    EncodedAs (.ldReg x y) 0x8000#16 0xF00F#16
      (0x8000#16 ||| (BitVec.ofNat 16 x.val <<< 8) ||| (BitVec.ofNat 16 y.val <<< 4)) ∧
    WritesReg (.ldImm x nn) s x nn ∧
    WritesReg (.addImm x nn) s x (BitVec.ofNat 8 (((s.reg x).toNat + nn.toNat) % 256)) ∧
    WritesReg (.ldReg x y) s x (s.reg y)

/-- 8XY1, 8XY2 and 8XY3: VX becomes the bitwise OR, AND or XOR, and VF is written only as the destination
(42_alu R183, R186, R189). -/
def Obligations.LogicLeavesVf : Prop :=
  ∀ (x y : Reg) (s : State),
    EncodedAs (.orReg x y) 0x8001#16 0xF00F#16
      (0x8001#16 ||| (BitVec.ofNat 16 x.val <<< 8) ||| (BitVec.ofNat 16 y.val <<< 4)) ∧
    EncodedAs (.andReg x y) 0x8002#16 0xF00F#16
      (0x8002#16 ||| (BitVec.ofNat 16 x.val <<< 8) ||| (BitVec.ofNat 16 y.val <<< 4)) ∧
    EncodedAs (.xorReg x y) 0x8003#16 0xF00F#16
      (0x8003#16 ||| (BitVec.ofNat 16 x.val <<< 8) ||| (BitVec.ofNat 16 y.val <<< 4)) ∧
    WritesReg (.orReg x y) s x (s.reg x ||| s.reg y) ∧
    WritesReg (.andReg x y) s x (s.reg x &&& s.reg y) ∧
    WritesReg (.xorReg x y) s x (s.reg x ^^^ s.reg y)

/-- 8XY4: the sum mod 256, and VF the carry, written last (42_alu R195). -/
def Obligations.AddSetsCarry : Prop :=
  ∀ (x y : Reg) (s : State),
    EncodedAs (.addReg x y) 0x8004#16 0xF00F#16
      (0x8004#16 ||| (BitVec.ofNat 16 x.val <<< 8) ||| (BitVec.ofNat 16 y.val <<< 4)) ∧
    WritesRegAndFlag (.addReg x y) s x
      (BitVec.ofNat 8 (((s.reg x).toNat + (s.reg y).toNat) % 256))
      (if (s.reg x).toNat + (s.reg y).toNat > 255 then 1#8 else 0#8)

/-- 8XY5 and 8XY7: the difference mod 256 of VX and VY, or of VY and VX, and VF 1 when there is no borrow, written last
(42_alu R200, R206). -/
def Obligations.SubtractSetsNoBorrow : Prop :=
  ∀ (x y : Reg) (s : State),
    EncodedAs (.subReg x y) 0x8005#16 0xF00F#16
      (0x8005#16 ||| (BitVec.ofNat 16 x.val <<< 8) ||| (BitVec.ofNat 16 y.val <<< 4)) ∧
    EncodedAs (.subn x y) 0x8007#16 0xF00F#16
      (0x8007#16 ||| (BitVec.ofNat 16 x.val <<< 8) ||| (BitVec.ofNat 16 y.val <<< 4)) ∧
    WritesRegAndFlag (.subReg x y) s x
      (BitVec.ofInt 8 (((s.reg x).toNat : Int) - (s.reg y).toNat))
      (if (s.reg x).toNat ≥ (s.reg y).toNat then 1#8 else 0#8) ∧
    WritesRegAndFlag (.subn x y) s x
      (BitVec.ofInt 8 (((s.reg y).toNat : Int) - (s.reg x).toNat))
      (if (s.reg y).toNat ≥ (s.reg x).toNat then 1#8 else 0#8)

/-- 8XY6 and 8XYE: VY shifted by one into VX, and VF the bit shifted out, written last (42_alu R203, R209). -/
def Obligations.ShiftsMoveVyAndKeepTheBitOut : Prop :=
  ∀ (x y : Reg) (s : State),
    EncodedAs (.shr x y) 0x8006#16 0xF00F#16
      (0x8006#16 ||| (BitVec.ofNat 16 x.val <<< 8) ||| (BitVec.ofNat 16 y.val <<< 4)) ∧
    EncodedAs (.shl x y) 0x800E#16 0xF00F#16
      (0x800E#16 ||| (BitVec.ofNat 16 x.val <<< 8) ||| (BitVec.ofNat 16 y.val <<< 4)) ∧
    WritesRegAndFlag (.shr x y) s x (BitVec.ofNat 8 ((s.reg y).toNat / 2))
      (BitVec.ofNat 8 ((s.reg y).toNat % 2)) ∧
    WritesRegAndFlag (.shl x y) s x (BitVec.ofNat 8 ((s.reg y).toNat * 2 % 256))
      (BitVec.ofNat 8 ((s.reg y).toNat / 128))

/-- CXNN: VX becomes a random byte ANDed with NN, for whatever the byte is; nothing else changes but the model's count of
draws (42_alu R215; log 1). -/
def Obligations.RandomIsMasked : Prop :=
  ∀ (x : Reg) (nn : Byte) (s : State),
    EncodedAs (.rnd x nn) 0xC000#16 0xF000#16 (0xC000#16 ||| (BitVec.ofNat 16 x.val <<< 8) ||| nn.setWidth 16) ∧
    ∃ t, exec (.rnd x nn) s = .next t ∧ t.reg x = Config.rnd s.draws &&& nn ∧
      (∀ q, q ≠ x → t.reg q = s.reg q) ∧ t = { s with v := t.v, draws := s.draws + 1 } ∧ SameMemory s t

/-! ## Index register and memory (43_index_memory) -/

/-- ANNN and FX29: I becomes NNN, or VX * 5 unmasked (43_index_memory R220, R230). -/
def Obligations.IndexLoads : Prop :=
  ∀ (nnn : Addr) (x : Reg) (s : State),
    EncodedAs (.ldI nnn) 0xA000#16 0xF000#16 (0xA000#16 ||| nnn.setWidth 16) ∧
    EncodedAs (.ldF x) 0xF029#16 0xF0FF#16 (0xF029#16 ||| (BitVec.ofNat 16 x.val <<< 8)) ∧
    (∃ t, exec (.ldI nnn) s = .next t ∧ t.i.toNat = nnn.toNat ∧ t = { s with i := t.i } ∧ SameMemory s t) ∧
    (∃ t, exec (.ldF x) s = .next t ∧ t.i.toNat = (s.reg x).toNat * 5 ∧ t = { s with i := t.i } ∧ SameMemory s t)

/-- FX1E: I becomes I + VX mod 2^16, and VF 1 when the sum passes 0xFFF, else 0; it never faults (43_index_memory R225). -/
def Obligations.IndexAddFlagsPassing0xFFF : Prop :=
  ∀ (x : Reg) (s : State),
    EncodedAs (.addI x) 0xF01E#16 0xF0FF#16 (0xF01E#16 ||| (BitVec.ofNat 16 x.val <<< 8)) ∧
    ∃ t, exec (.addI x) s = .next t ∧
      t.i.toNat = (s.i.toNat + (s.reg x).toNat) % 65536 ∧
      t.reg 15 = (if s.i.toNat + (s.reg x).toNat > 0xFFF then 1#8 else 0#8) ∧
      (∀ q, q ≠ 15 → t.reg q = s.reg q) ∧ t = { s with i := t.i, v := t.v } ∧ SameMemory s t

/-- FX33: the three decimal digits of VX at I, I + 1 and I + 2, every other byte unchanged; a range past 0xFFF writes no
byte and raises AddressOverflow (43_index_memory R240). -/
def Obligations.DecimalStore : Prop :=
  ∀ (x : Reg) (s : State),
    EncodedAs (.ldB x) 0xF033#16 0xF0FF#16 (0xF033#16 ||| (BitVec.ofNat 16 x.val <<< 8)) ∧
    (s.i.toNat + 2 ≤ 0xFFF → ∃ t, exec (.ldB x) s = .next t ∧
      (t.byte s.i.toNat).toNat = (s.reg x).toNat / 100 ∧
      (t.byte (s.i.toNat + 1)).toNat = (s.reg x).toNat / 10 % 10 ∧
      (t.byte (s.i.toNat + 2)).toNat = (s.reg x).toNat % 10 ∧
      (∀ a, a < s.i.toNat ∨ s.i.toNat + 2 < a → t.byte a = s.byte a) ∧ t = { s with mem := t.mem }) ∧
    (0xFFF < s.i.toNat + 2 → FaultsWith (.ldB x) s .addressOverflow 4)

/-- FX55: V0..VX at I..I + X, every other byte unchanged, and I moved on by X + 1; a range past 0xFFF writes no byte and
raises AddressOverflow (43_index_memory R245). -/
def Obligations.RegisterStore : Prop :=
  ∀ (x : Reg) (s : State),
    EncodedAs (.ldMemVx x) 0xF055#16 0xF0FF#16 (0xF055#16 ||| (BitVec.ofNat 16 x.val <<< 8)) ∧
    (s.i.toNat + x.val ≤ 0xFFF → ∃ t, exec (.ldMemVx x) s = .next t ∧
      (∀ j : Reg, j ≤ x → t.byte (s.i.toNat + j.val) = s.reg j) ∧
      (∀ a, a < s.i.toNat ∨ s.i.toNat + x.val < a → t.byte a = s.byte a) ∧
      t.i.toNat = s.i.toNat + x.val + 1 ∧ t = { s with mem := t.mem, i := t.i }) ∧
    (0xFFF < s.i.toNat + x.val → FaultsWith (.ldMemVx x) s .addressOverflow 4)

/-- FX65: V0..VX from I..I + X, every other register unchanged, and I moved on by X + 1; a range past 0xFFF writes no
register and raises AddressOverflow (43_index_memory R250). -/
def Obligations.RegisterLoad : Prop :=
  ∀ (x : Reg) (s : State),
    EncodedAs (.ldVxMem x) 0xF065#16 0xF0FF#16 (0xF065#16 ||| (BitVec.ofNat 16 x.val <<< 8)) ∧
    (s.i.toNat + x.val ≤ 0xFFF → ∃ t, exec (.ldVxMem x) s = .next t ∧
      (∀ j : Reg, j ≤ x → t.reg j = s.byte (s.i.toNat + j.val)) ∧
      (∀ j : Reg, x < j → t.reg j = s.reg j) ∧
      t.i.toNat = s.i.toNat + x.val + 1 ∧ t = { s with v := t.v, i := t.i } ∧ SameMemory s t) ∧
    (0xFFF < s.i.toNat + x.val → FaultsWith (.ldVxMem x) s .addressOverflow 4)

/-- FX55 and then FX65 with the same X from the same I bring V0..VX back, whatever the registers held in between
(43_index_memory R250; 95_test_vectors S11). -/
def Obligations.LoadAfterStoreRestoresRegisters : Prop :=
  ∀ (x : Reg) (s : State) (v : Vector Byte 16), s.i.toNat + x.val ≤ 0xFFF →
    ∃ t u, exec (.ldMemVx x) s = .next t ∧ exec (.ldVxMem x) { t with i := s.i, v := v } = .next u ∧
      (∀ j : Reg, j ≤ x → u.reg j = s.reg j) ∧ u.i = t.i

/-! ## Display (44_display) -/

/-- 00E0: every cell 0 and redraw 1, and nothing else changes (44_display R260). -/
def Obligations.ClearTurnsEveryCellOff : Prop :=
  EncodedAs .cls 0x00E0#16 0xFFFF#16 0x00E0#16 ∧
  ∀ s : State, ∃ t, exec .cls s = .next t ∧ (∀ (cy : Fin 32) (cx : Fin 64), t.fb[cy][cx] = false) ∧
    t.redraw = true ∧ t = { s with fb := t.fb, redraw := t.redraw } ∧ SameMemory s t

/-- DXYN: every cell is its old value XORed with the sprite's bit on it; VF is 1 exactly when a lit cell was turned off;
redraw is 1; a range past 0xFFF raises AddressOverflow (44_display R265, R266, R267). The bit order of a row byte is the
spec's from general knowledge (log 9). -/
def Obligations.DrawXorsTheSprite : Prop :=
  ∀ (x y : Reg) (n : Nat) (s : State), n < 16 →
    EncodedAs (.drw x y n) 0xD000#16 0xF000#16
      (0xD000#16 ||| (BitVec.ofNat 16 x.val <<< 8) ||| (BitVec.ofNat 16 y.val <<< 4) ||| BitVec.ofNat 16 n) ∧
    ((n = 0 ∨ s.i.toNat + n - 1 ≤ 0xFFF) → ∃ t, exec (.drw x y n) s = .next t ∧
      (∀ (cy : Fin 32) (cx : Fin 64),
        (SpriteOn s x y n cx cy → t.fb[cy][cx] = !(s.fb[cy][cx])) ∧
        (¬ SpriteOn s x y n cx cy → t.fb[cy][cx] = s.fb[cy][cx])) ∧
      ((∃ (cy : Fin 32) (cx : Fin 64), SpriteOn s x y n cx cy ∧ s.fb[cy][cx] = true) → t.reg 15 = 1#8) ∧
      ((¬ ∃ (cy : Fin 32) (cx : Fin 64), SpriteOn s x y n cx cy ∧ s.fb[cy][cx] = true) → t.reg 15 = 0#8) ∧
      (∀ q, q ≠ 15 → t.reg q = s.reg q) ∧ t.redraw = true ∧
      t = { s with v := t.v, fb := t.fb, redraw := t.redraw } ∧ SameMemory s t) ∧
    (0 < n → 0xFFF < s.i.toNat + n - 1 → FaultsWith (.drw x y n) s .addressOverflow 4)

/-- Drawing the same sprite at the same origin twice brings the buffer back, and the second draw's VF is 1 exactly when the
first draw turned a cell on (44_display R268, the spec's own inference: "derived: from rule R265 and rule R266"). Which
cells the sprite has a bit on rests on the bit order of R267, "from general knowledge" (log 9, PRESUMED). -/
def Obligations.DrawTwiceRestoresTheBuffer : Prop :=
  ∀ (x y : Reg) (n : Nat) (s : State), (n = 0 ∨ s.i.toNat + n - 1 ≤ 0xFFF) →
    ∃ t u, exec (.drw x y n) s = .next t ∧ exec (.drw x y n) { t with v := s.v } = .next u ∧ u.fb = s.fb ∧
      ((∃ (cy : Fin 32) (cx : Fin 64), SpriteOn s x y n cx cy ∧ s.fb[cy][cx] = false) → u.reg 15 = 1#8) ∧
      ((¬ ∃ (cy : Fin 32) (cx : Fin 64), SpriteOn s x y n cx cy ∧ s.fb[cy][cx] = false) → u.reg 15 = 0#8)

/-! ## Keypad (45_keypad) and timer instructions (46_timers) -/

/-- EX9E and EXA1: KeyIndexError when VX > 0xF, checked first; else skip when key VX is, or is not, pressed
(45_keypad R290, R293; 40_engine_cycle R109). -/
def Obligations.KeySkips : Prop :=
  ∀ (x : Reg) (s : State),
    EncodedAs (.skp x) 0xE09E#16 0xF0FF#16 (0xE09E#16 ||| (BitVec.ofNat 16 x.val <<< 8)) ∧
    EncodedAs (.sknp x) 0xE0A1#16 0xF0FF#16 (0xE0A1#16 ||| (BitVec.ofNat 16 x.val <<< 8)) ∧
    (0xF < (s.reg x).toNat →
      FaultsWith (.skp x) s .keyIndexError 5 ∧ FaultsWith (.sknp x) s .keyIndexError 5) ∧
    (∀ k : Key, (s.reg x).toNat = k.val →
      SkipsWhen (.skp x) s (s.key[k] = true) ∧ SkipsWhen (.sknp x) s (s.key[k] = false))

/-- FX0A: the engine waits on the keys pressed now; no register is written and the pc stays (45_keypad R296). -/
def Obligations.KeyWaitIsEntered : Prop :=
  ∀ (x : Reg) (s : State),
    EncodedAs (.ldVxK x) 0xF00A#16 0xF0FF#16 (0xF00A#16 ||| (BitVec.ofNat 16 x.val <<< 8)) ∧
    exec (.ldVxK x) s = .next { s with run := .waitKey x s.key }

/-- FX07, FX15 and FX18: VX from DT, DT from VX, ST from VX; sound is active exactly when ST is not 0
(46_timers R322, R325, R328; 10_state R45). -/
def Obligations.TimerMoves : Prop :=
  ∀ (x : Reg) (s : State),
    EncodedAs (.ldVxDt x) 0xF007#16 0xF0FF#16 (0xF007#16 ||| (BitVec.ofNat 16 x.val <<< 8)) ∧
    EncodedAs (.ldDtVx x) 0xF015#16 0xF0FF#16 (0xF015#16 ||| (BitVec.ofNat 16 x.val <<< 8)) ∧
    EncodedAs (.ldStVx x) 0xF018#16 0xF0FF#16 (0xF018#16 ||| (BitVec.ofNat 16 x.val <<< 8)) ∧
    WritesReg (.ldVxDt x) s x s.dt ∧
    exec (.ldDtVx x) s = .next { s with dt := s.reg x } ∧
    (∃ t, exec (.ldStVx x) s = .next t ∧ t = { s with st := s.reg x } ∧
      (t.soundActive = true ↔ s.reg x ≠ 0#8))
end

