-- ==== Sys2Proof/Laws/Decode.lean ====
section
/-! SUPPORT. The fields of a word and of an assembled word. -/

namespace Sys2Proof

/-- A word is its four nibbles. -/
theorem word_of_nibbles (w : Word) : n1Field w ++ xField w ++ yField w ++ nField w = w := by
  apply BitVec.eq_of_getLsbD_eq
  intro k hk
  have : ∀ k < 16, (n1Field w ++ xField w ++ yField w ++ nField w).getLsbD k = w.getLsbD k := by
    intro k hk
    simp only [n1Field, xField, yField, nField, BitVec.getLsbD_append, BitVec.getLsbD_extractLsb']
    interval_cases k <;> simp
  exact this k hk

/-- NN is Y and N side by side (30_encoding R81). -/
theorem nnField_eq (w : Word) : nnField w = yField w ++ nField w := by
  apply BitVec.eq_of_getLsbD_eq
  intro k hk
  simp only [nnField, yField, nField, BitVec.getLsbD_append, BitVec.getLsbD_extractLsb']
  interval_cases k <;> simp

/-- NNN is X, Y and N side by side (30_encoding R81). -/
theorem nnnField_eq (w : Word) : nnnField w = xField w ++ yField w ++ nField w := by
  apply BitVec.eq_of_getLsbD_eq
  intro k hk
  simp only [nnnField, xField, yField, nField, BitVec.getLsbD_append, BitVec.getLsbD_extractLsb']
  interval_cases k <;> simp

/-- The word a fetch of its own bytes gives (20_memory R62). -/
theorem joinBytes_wordBytes (w : Word) : joinBytes (w.extractLsb' 8 8) (w.extractLsb' 0 8) = w := by
  apply BitVec.eq_of_getLsbD_eq
  intro k hk
  simp only [joinBytes, BitVec.getLsbD_append, BitVec.getLsbD_extractLsb']
  interval_cases k <;> simp

/-! ## The fields of an assembled word -/

@[simp] theorem n1Field_or (a b : Word) : n1Field (a ||| b) = n1Field a ||| n1Field b := BitVec.extractLsb'_or
@[simp] theorem xField_or (a b : Word) : xField (a ||| b) = xField a ||| xField b := BitVec.extractLsb'_or
@[simp] theorem yField_or (a b : Word) : yField (a ||| b) = yField a ||| yField b := BitVec.extractLsb'_or
@[simp] theorem nField_or (a b : Word) : nField (a ||| b) = nField a ||| nField b := BitVec.extractLsb'_or
@[simp] theorem nnField_or (a b : Word) : nnField (a ||| b) = nnField a ||| nnField b := BitVec.extractLsb'_or
@[simp] theorem nnnField_or (a b : Word) : nnnField (a ||| b) = nnnField a ||| nnnField b := BitVec.extractLsb'_or

@[simp] theorem n1Field_placeX (x : Reg) : n1Field (placeX x) = 0#4 := by revert x; decide
@[simp] theorem xField_placeX (x : Reg) : xField (placeX x) = BitVec.ofNat 4 x.val := by revert x; decide
@[simp] theorem yField_placeX (x : Reg) : yField (placeX x) = 0#4 := by revert x; decide
@[simp] theorem nField_placeX (x : Reg) : nField (placeX x) = 0#4 := by revert x; decide
@[simp] theorem nnField_placeX (x : Reg) : nnField (placeX x) = 0#8 := by revert x; decide

@[simp] theorem n1Field_placeY (y : Reg) : n1Field (placeY y) = 0#4 := by revert y; decide
@[simp] theorem xField_placeY (y : Reg) : xField (placeY y) = 0#4 := by revert y; decide
@[simp] theorem yField_placeY (y : Reg) : yField (placeY y) = BitVec.ofNat 4 y.val := by revert y; decide
@[simp] theorem nField_placeY (y : Reg) : nField (placeY y) = 0#4 := by revert y; decide

@[simp] theorem regOf_ofNat (x : Reg) : regOf (BitVec.ofNat 4 x.val) = x := by revert x; decide

theorem getLsbD_placeNN (nn : Byte) (k : Nat) : (placeNN nn).getLsbD k = (decide (k < 16) && nn.getLsbD k) := by
  simp [placeNN]

theorem getLsbD_placeNNN (nnn : Addr) (k : Nat) : (placeNNN nnn).getLsbD k = (decide (k < 16) && nnn.getLsbD k) := by
  simp [placeNNN]

theorem getLsbD_placeN (n k : Nat) :
    (placeN n).getLsbD k = (decide (k < 16) && (BitVec.ofNat 4 n).getLsbD k) := by
  simp [placeN]

@[simp] theorem n1Field_placeNN (nn : Byte) : n1Field (placeNN nn) = 0#4 := by
  apply BitVec.eq_of_getLsbD_eq
  intro k hk
  simp only [n1Field, BitVec.getLsbD_extractLsb', getLsbD_placeNN]
  interval_cases k <;> simp

@[simp] theorem xField_placeNN (nn : Byte) : xField (placeNN nn) = 0#4 := by
  apply BitVec.eq_of_getLsbD_eq
  intro k hk
  simp only [xField, BitVec.getLsbD_extractLsb', getLsbD_placeNN]
  interval_cases k <;> simp

@[simp] theorem nnField_placeNN (nn : Byte) : nnField (placeNN nn) = nn := by
  apply BitVec.eq_of_getLsbD_eq
  intro k hk
  simp only [nnField, BitVec.getLsbD_extractLsb', getLsbD_placeNN]
  interval_cases k <;> simp

@[simp] theorem n1Field_placeNNN (nnn : Addr) : n1Field (placeNNN nnn) = 0#4 := by
  apply BitVec.eq_of_getLsbD_eq
  intro k hk
  simp only [n1Field, BitVec.getLsbD_extractLsb', getLsbD_placeNNN]
  interval_cases k <;> simp

@[simp] theorem nnnField_placeNNN (nnn : Addr) : nnnField (placeNNN nnn) = nnn := by
  apply BitVec.eq_of_getLsbD_eq
  intro k hk
  simp only [nnnField, BitVec.getLsbD_extractLsb', getLsbD_placeNNN]
  interval_cases k <;> simp

@[simp] theorem n1Field_placeN (n : Nat) : n1Field (placeN n) = 0#4 := by
  apply BitVec.eq_of_getLsbD_eq
  intro k hk
  simp only [n1Field, BitVec.getLsbD_extractLsb', getLsbD_placeN]
  interval_cases k <;> simp

@[simp] theorem xField_placeN (n : Nat) : xField (placeN n) = 0#4 := by
  apply BitVec.eq_of_getLsbD_eq
  intro k hk
  simp only [xField, BitVec.getLsbD_extractLsb', getLsbD_placeN]
  interval_cases k <;> simp

@[simp] theorem yField_placeN (n : Nat) : yField (placeN n) = 0#4 := by
  apply BitVec.eq_of_getLsbD_eq
  intro k hk
  simp only [yField, BitVec.getLsbD_extractLsb', getLsbD_placeN]
  interval_cases k <;> simp

@[simp] theorem nField_placeN (n : Nat) : nField (placeN n) = BitVec.ofNat 4 n := by
  apply BitVec.eq_of_getLsbD_eq
  intro k hk
  simp only [nField, BitVec.getLsbD_extractLsb', getLsbD_placeN]
  interval_cases k <;> simp

@[simp] theorem regOf_ofFin (x : Reg) : regOf (BitVec.ofFin x) = x := rfl

/-! ## A word assembled again from its own fields -/

theorem placeX_regOf (f : Nibble) : placeX (regOf f) = f.setWidth 16 <<< 8 := by revert f; decide
theorem placeY_regOf (f : Nibble) : placeY (regOf f) = f.setWidth 16 <<< 4 := by revert f; decide
theorem placeN_toNat (f : Nibble) : placeN f.toNat = f.setWidth 16 := by revert f; decide

theorem word_of_addr_fields (w : Word) : n1Field w ++ nnnField w = w := by
  apply BitVec.eq_of_getLsbD_eq
  intro k hk
  simp only [n1Field, nnnField, BitVec.getLsbD_append, BitVec.getLsbD_extractLsb']
  interval_cases k <;> simp

theorem word_of_imm_fields (w : Word) : n1Field w ++ xField w ++ nnField w = w := by
  apply BitVec.eq_of_getLsbD_eq
  intro k hk
  simp only [n1Field, xField, nnField, BitVec.getLsbD_append, BitVec.getLsbD_extractLsb']
  interval_cases k <;> simp

/-- The addr form, from the fields of a word of family `c`. -/
theorem assemble_addr (w : Word) (c : Nibble) (h : n1Field w = c) (m : Word) (hm : m = c.setWidth 16 <<< 12) :
    m ||| placeNNN (nnnField w) = w := by
  subst hm
  conv_rhs => rw [← word_of_addr_fields w, h]
  apply BitVec.eq_of_getLsbD_eq
  intro k hk
  simp only [BitVec.getLsbD_append, BitVec.getLsbD_or, getLsbD_placeNNN, BitVec.getLsbD_shiftLeft,
    BitVec.getLsbD_setWidth]
  interval_cases k <;> simp

/-- The reg_imm form, from the fields of a word of family `c`. -/
theorem assemble_imm (w : Word) (c : Nibble) (h : n1Field w = c) (m : Word) (hm : m = c.setWidth 16 <<< 12) :
    m ||| placeX (regOf (xField w)) ||| placeNN (nnField w) = w := by
  subst hm
  conv_rhs => rw [← word_of_imm_fields w, h]
  rw [placeX_regOf]
  apply BitVec.eq_of_getLsbD_eq
  intro k hk
  simp only [BitVec.getLsbD_append, BitVec.getLsbD_or, getLsbD_placeNN, BitVec.getLsbD_shiftLeft,
    BitVec.getLsbD_setWidth]
  interval_cases k <;> simp

/-- The draw form, from the fields of a word of family `c`. -/
theorem assemble_draw (w : Word) (c : Nibble) (h : n1Field w = c) (m : Word) (hm : m = c.setWidth 16 <<< 12) :
    m ||| placeX (regOf (xField w)) ||| placeY (regOf (yField w)) |||
      placeN (nField w).toNat = w := by
  subst hm
  conv_rhs => rw [← word_of_nibbles w, h]
  rw [placeX_regOf, placeY_regOf, placeN_toNat]
  apply BitVec.eq_of_getLsbD_eq
  intro k hk
  simp only [BitVec.getLsbD_append, BitVec.getLsbD_or, BitVec.getLsbD_shiftLeft, BitVec.getLsbD_setWidth]
  interval_cases k <;> simp

/-- The reg_reg_fn form: family `c`, function `n`, and their match `m`. -/
theorem assemble_reg_reg (w : Word) (c n : Nibble) (h : n1Field w = c) (hn : nField w = n) (m : Word)
    (hm : m = (c.setWidth 16 <<< 12) ||| n.setWidth 16) :
    m ||| placeX (regOf (xField w)) ||| placeY (regOf (yField w)) = w := by
  subst hm
  conv_rhs => rw [← assemble_draw w c h _ rfl, hn, placeN_toNat]
  ac_rfl

/-- The reg_fn form: family `c`, function `b`, and their match `m`. -/
theorem assemble_reg (w : Word) (c : Nibble) (b : Byte) (h : n1Field w = c) (hn : nnField w = b) (m : Word)
    (hm : m = (c.setWidth 16 <<< 12) ||| b.setWidth 16) : m ||| placeX (regOf (xField w)) = w := by
  subst hm
  conv_rhs => rw [← assemble_imm w c h _ rfl, hn]
  show _ = _ ||| _ ||| b.setWidth 16
  ac_rfl

/-! ## An assembled word under its row's mask -/

@[simp] theorem placeX_and_family (x : Reg) : placeX x &&& 0xF000#16 = 0#16 := by revert x; decide
@[simp] theorem placeX_and_function (x : Reg) : placeX x &&& 0xF00F#16 = 0#16 := by revert x; decide
@[simp] theorem placeX_and_low (x : Reg) : placeX x &&& 0xF0FF#16 = 0#16 := by revert x; decide
@[simp] theorem placeY_and_family (y : Reg) : placeY y &&& 0xF000#16 = 0#16 := by revert y; decide
@[simp] theorem placeY_and_function (y : Reg) : placeY y &&& 0xF00F#16 = 0#16 := by revert y; decide

@[simp] theorem placeNN_and_family (nn : Byte) : placeNN nn &&& 0xF000#16 = 0#16 := by
  apply BitVec.eq_of_getLsbD_eq
  intro k hk
  rw [BitVec.getLsbD_and, getLsbD_placeNN]
  interval_cases k <;> simp

@[simp] theorem placeNNN_and_family (nnn : Addr) : placeNNN nnn &&& 0xF000#16 = 0#16 := by
  apply BitVec.eq_of_getLsbD_eq
  intro k hk
  rw [BitVec.getLsbD_and, getLsbD_placeNNN]
  interval_cases k <;> simp

@[simp] theorem placeN_and_family (n : Nat) : placeN n &&& 0xF000#16 = 0#16 := by
  apply BitVec.eq_of_getLsbD_eq
  intro k hk
  rw [BitVec.getLsbD_and, getLsbD_placeN]
  interval_cases k <;> simp

theorem or_and_distrib (a b m : Word) : (a ||| b) &&& m = (a &&& m) ||| (b &&& m) := by
  apply BitVec.eq_of_getLsbD_eq
  intro k hk
  simp [Bool.and_or_distrib_right]

end Sys2Proof
end

