-- ==== Sys2Proof/Laws/State.lean ====
section
/-! SUPPORT. One lemma per field per update of the state, and how `reg` and `byte` read through the updates. -/

namespace Sys2Proof.Machine

variable (s : State)

@[simp] theorem State.setReg_mem (r : Reg) (b : Byte) : (s.setReg r b).mem = s.mem := rfl
@[simp] theorem State.setReg_v (r : Reg) (b : Byte) : (s.setReg r b).v = s.v.set r b := rfl
@[simp] theorem State.setReg_i (r : Reg) (b : Byte) : (s.setReg r b).i = s.i := rfl
@[simp] theorem State.setReg_pc (r : Reg) (b : Byte) : (s.setReg r b).pc = s.pc := rfl
@[simp] theorem State.setReg_sp (r : Reg) (b : Byte) : (s.setReg r b).sp = s.sp := rfl
@[simp] theorem State.setReg_stack (r : Reg) (b : Byte) : (s.setReg r b).stack = s.stack := rfl
@[simp] theorem State.setReg_dt (r : Reg) (b : Byte) : (s.setReg r b).dt = s.dt := rfl
@[simp] theorem State.setReg_st (r : Reg) (b : Byte) : (s.setReg r b).st = s.st := rfl
@[simp] theorem State.setReg_fb (r : Reg) (b : Byte) : (s.setReg r b).fb = s.fb := rfl
@[simp] theorem State.setReg_key (r : Reg) (b : Byte) : (s.setReg r b).key = s.key := rfl
@[simp] theorem State.setReg_redraw (r : Reg) (b : Byte) : (s.setReg r b).redraw = s.redraw := rfl
@[simp] theorem State.setReg_run (r : Reg) (b : Byte) : (s.setReg r b).run = s.run := rfl
@[simp] theorem State.setReg_fault (r : Reg) (b : Byte) : (s.setReg r b).fault = s.fault := rfl
@[simp] theorem State.setReg_draws (r : Reg) (b : Byte) : (s.setReg r b).draws = s.draws := rfl
@[simp] theorem State.setReg_agenda (r : Reg) (b : Byte) : (s.setReg r b).agenda = s.agenda := rfl
@[simp] theorem State.setReg_byte (r : Reg) (b : Byte) (n : Nat) : (s.setReg r b).byte n = s.byte n := rfl

@[simp] theorem State.setI_mem (w : Word) : (s.setI w).mem = s.mem := rfl
@[simp] theorem State.setI_v (w : Word) : (s.setI w).v = s.v := rfl
@[simp] theorem State.setI_i (w : Word) : (s.setI w).i = w := rfl
@[simp] theorem State.setI_pc (w : Word) : (s.setI w).pc = s.pc := rfl
@[simp] theorem State.setI_sp (w : Word) : (s.setI w).sp = s.sp := rfl
@[simp] theorem State.setI_stack (w : Word) : (s.setI w).stack = s.stack := rfl
@[simp] theorem State.setI_dt (w : Word) : (s.setI w).dt = s.dt := rfl
@[simp] theorem State.setI_st (w : Word) : (s.setI w).st = s.st := rfl
@[simp] theorem State.setI_fb (w : Word) : (s.setI w).fb = s.fb := rfl
@[simp] theorem State.setI_key (w : Word) : (s.setI w).key = s.key := rfl
@[simp] theorem State.setI_redraw (w : Word) : (s.setI w).redraw = s.redraw := rfl
@[simp] theorem State.setI_run (w : Word) : (s.setI w).run = s.run := rfl
@[simp] theorem State.setI_fault (w : Word) : (s.setI w).fault = s.fault := rfl
@[simp] theorem State.setI_draws (w : Word) : (s.setI w).draws = s.draws := rfl
@[simp] theorem State.setI_agenda (w : Word) : (s.setI w).agenda = s.agenda := rfl
@[simp] theorem State.setI_reg (w : Word) (q : Reg) : (s.setI w).reg q = s.reg q := rfl
@[simp] theorem State.setI_byte (w : Word) (n : Nat) : (s.setI w).byte n = s.byte n := rfl

@[simp] theorem State.setPc_mem (a : Addr) : (s.setPc a).mem = s.mem := rfl
@[simp] theorem State.setPc_v (a : Addr) : (s.setPc a).v = s.v := rfl
@[simp] theorem State.setPc_i (a : Addr) : (s.setPc a).i = s.i := rfl
@[simp] theorem State.setPc_pc (a : Addr) : (s.setPc a).pc = a := rfl
@[simp] theorem State.setPc_sp (a : Addr) : (s.setPc a).sp = s.sp := rfl
@[simp] theorem State.setPc_stack (a : Addr) : (s.setPc a).stack = s.stack := rfl
@[simp] theorem State.setPc_dt (a : Addr) : (s.setPc a).dt = s.dt := rfl
@[simp] theorem State.setPc_st (a : Addr) : (s.setPc a).st = s.st := rfl
@[simp] theorem State.setPc_fb (a : Addr) : (s.setPc a).fb = s.fb := rfl
@[simp] theorem State.setPc_key (a : Addr) : (s.setPc a).key = s.key := rfl
@[simp] theorem State.setPc_redraw (a : Addr) : (s.setPc a).redraw = s.redraw := rfl
@[simp] theorem State.setPc_run (a : Addr) : (s.setPc a).run = s.run := rfl
@[simp] theorem State.setPc_fault (a : Addr) : (s.setPc a).fault = s.fault := rfl
@[simp] theorem State.setPc_draws (a : Addr) : (s.setPc a).draws = s.draws := rfl
@[simp] theorem State.setPc_agenda (a : Addr) : (s.setPc a).agenda = s.agenda := rfl
@[simp] theorem State.setPc_reg (a : Addr) (q : Reg) : (s.setPc a).reg q = s.reg q := rfl
@[simp] theorem State.setPc_byte (a : Addr) (n : Nat) : (s.setPc a).byte n = s.byte n := rfl

@[simp] theorem State.setDt_mem (b : Byte) : (s.setDt b).mem = s.mem := rfl
@[simp] theorem State.setDt_v (b : Byte) : (s.setDt b).v = s.v := rfl
@[simp] theorem State.setDt_i (b : Byte) : (s.setDt b).i = s.i := rfl
@[simp] theorem State.setDt_pc (b : Byte) : (s.setDt b).pc = s.pc := rfl
@[simp] theorem State.setDt_sp (b : Byte) : (s.setDt b).sp = s.sp := rfl
@[simp] theorem State.setDt_stack (b : Byte) : (s.setDt b).stack = s.stack := rfl
@[simp] theorem State.setDt_dt (b : Byte) : (s.setDt b).dt = b := rfl
@[simp] theorem State.setDt_st (b : Byte) : (s.setDt b).st = s.st := rfl
@[simp] theorem State.setDt_fb (b : Byte) : (s.setDt b).fb = s.fb := rfl
@[simp] theorem State.setDt_key (b : Byte) : (s.setDt b).key = s.key := rfl
@[simp] theorem State.setDt_redraw (b : Byte) : (s.setDt b).redraw = s.redraw := rfl
@[simp] theorem State.setDt_run (b : Byte) : (s.setDt b).run = s.run := rfl
@[simp] theorem State.setDt_fault (b : Byte) : (s.setDt b).fault = s.fault := rfl
@[simp] theorem State.setDt_draws (b : Byte) : (s.setDt b).draws = s.draws := rfl
@[simp] theorem State.setDt_agenda (b : Byte) : (s.setDt b).agenda = s.agenda := rfl
@[simp] theorem State.setDt_reg (b : Byte) (q : Reg) : (s.setDt b).reg q = s.reg q := rfl
@[simp] theorem State.setDt_byte (b : Byte) (n : Nat) : (s.setDt b).byte n = s.byte n := rfl

@[simp] theorem State.setSt_mem (b : Byte) : (s.setSt b).mem = s.mem := rfl
@[simp] theorem State.setSt_v (b : Byte) : (s.setSt b).v = s.v := rfl
@[simp] theorem State.setSt_i (b : Byte) : (s.setSt b).i = s.i := rfl
@[simp] theorem State.setSt_pc (b : Byte) : (s.setSt b).pc = s.pc := rfl
@[simp] theorem State.setSt_sp (b : Byte) : (s.setSt b).sp = s.sp := rfl
@[simp] theorem State.setSt_stack (b : Byte) : (s.setSt b).stack = s.stack := rfl
@[simp] theorem State.setSt_dt (b : Byte) : (s.setSt b).dt = s.dt := rfl
@[simp] theorem State.setSt_st (b : Byte) : (s.setSt b).st = b := rfl
@[simp] theorem State.setSt_fb (b : Byte) : (s.setSt b).fb = s.fb := rfl
@[simp] theorem State.setSt_key (b : Byte) : (s.setSt b).key = s.key := rfl
@[simp] theorem State.setSt_redraw (b : Byte) : (s.setSt b).redraw = s.redraw := rfl
@[simp] theorem State.setSt_run (b : Byte) : (s.setSt b).run = s.run := rfl
@[simp] theorem State.setSt_fault (b : Byte) : (s.setSt b).fault = s.fault := rfl
@[simp] theorem State.setSt_draws (b : Byte) : (s.setSt b).draws = s.draws := rfl
@[simp] theorem State.setSt_agenda (b : Byte) : (s.setSt b).agenda = s.agenda := rfl
@[simp] theorem State.setSt_reg (b : Byte) (q : Reg) : (s.setSt b).reg q = s.reg q := rfl
@[simp] theorem State.setSt_byte (b : Byte) (n : Nat) : (s.setSt b).byte n = s.byte n := rfl

@[simp] theorem State.setRun_mem (u : RunState) : (s.setRun u).mem = s.mem := rfl
@[simp] theorem State.setRun_v (u : RunState) : (s.setRun u).v = s.v := rfl
@[simp] theorem State.setRun_i (u : RunState) : (s.setRun u).i = s.i := rfl
@[simp] theorem State.setRun_pc (u : RunState) : (s.setRun u).pc = s.pc := rfl
@[simp] theorem State.setRun_sp (u : RunState) : (s.setRun u).sp = s.sp := rfl
@[simp] theorem State.setRun_stack (u : RunState) : (s.setRun u).stack = s.stack := rfl
@[simp] theorem State.setRun_dt (u : RunState) : (s.setRun u).dt = s.dt := rfl
@[simp] theorem State.setRun_st (u : RunState) : (s.setRun u).st = s.st := rfl
@[simp] theorem State.setRun_fb (u : RunState) : (s.setRun u).fb = s.fb := rfl
@[simp] theorem State.setRun_key (u : RunState) : (s.setRun u).key = s.key := rfl
@[simp] theorem State.setRun_redraw (u : RunState) : (s.setRun u).redraw = s.redraw := rfl
@[simp] theorem State.setRun_run (u : RunState) : (s.setRun u).run = u := rfl
@[simp] theorem State.setRun_fault (u : RunState) : (s.setRun u).fault = s.fault := rfl
@[simp] theorem State.setRun_draws (u : RunState) : (s.setRun u).draws = s.draws := rfl
@[simp] theorem State.setRun_agenda (u : RunState) : (s.setRun u).agenda = s.agenda := rfl
@[simp] theorem State.setRun_reg (u : RunState) (q : Reg) : (s.setRun u).reg q = s.reg q := rfl
@[simp] theorem State.setRun_byte (u : RunState) (n : Nat) : (s.setRun u).byte n = s.byte n := rfl

@[simp] theorem State.store_mem (a : Nat) (bs : List Byte) : (s.store a bs).mem = storeBytes s.mem a bs := rfl
@[simp] theorem State.store_v (a : Nat) (bs : List Byte) : (s.store a bs).v = s.v := rfl
@[simp] theorem State.store_i (a : Nat) (bs : List Byte) : (s.store a bs).i = s.i := rfl
@[simp] theorem State.store_pc (a : Nat) (bs : List Byte) : (s.store a bs).pc = s.pc := rfl
@[simp] theorem State.store_sp (a : Nat) (bs : List Byte) : (s.store a bs).sp = s.sp := rfl
@[simp] theorem State.store_stack (a : Nat) (bs : List Byte) : (s.store a bs).stack = s.stack := rfl
@[simp] theorem State.store_dt (a : Nat) (bs : List Byte) : (s.store a bs).dt = s.dt := rfl
@[simp] theorem State.store_st (a : Nat) (bs : List Byte) : (s.store a bs).st = s.st := rfl
@[simp] theorem State.store_fb (a : Nat) (bs : List Byte) : (s.store a bs).fb = s.fb := rfl
@[simp] theorem State.store_key (a : Nat) (bs : List Byte) : (s.store a bs).key = s.key := rfl
@[simp] theorem State.store_redraw (a : Nat) (bs : List Byte) : (s.store a bs).redraw = s.redraw := rfl
@[simp] theorem State.store_run (a : Nat) (bs : List Byte) : (s.store a bs).run = s.run := rfl
@[simp] theorem State.store_fault (a : Nat) (bs : List Byte) : (s.store a bs).fault = s.fault := rfl
@[simp] theorem State.store_draws (a : Nat) (bs : List Byte) : (s.store a bs).draws = s.draws := rfl
@[simp] theorem State.store_agenda (a : Nat) (bs : List Byte) : (s.store a bs).agenda = s.agenda := rfl
@[simp] theorem State.store_reg (a : Nat) (bs : List Byte) (q : Reg) : (s.store a bs).reg q = s.reg q := rfl

@[simp] theorem State.raise_mem (k : FaultKind) (a : Addr) (w : Word) : (s.raise k a w).mem = s.mem := rfl
@[simp] theorem State.raise_v (k : FaultKind) (a : Addr) (w : Word) : (s.raise k a w).v = s.v := rfl
@[simp] theorem State.raise_i (k : FaultKind) (a : Addr) (w : Word) : (s.raise k a w).i = s.i := rfl
@[simp] theorem State.raise_pc (k : FaultKind) (a : Addr) (w : Word) : (s.raise k a w).pc = s.pc := rfl
@[simp] theorem State.raise_sp (k : FaultKind) (a : Addr) (w : Word) : (s.raise k a w).sp = s.sp := rfl
@[simp] theorem State.raise_stack (k : FaultKind) (a : Addr) (w : Word) : (s.raise k a w).stack = s.stack := rfl
@[simp] theorem State.raise_dt (k : FaultKind) (a : Addr) (w : Word) : (s.raise k a w).dt = s.dt := rfl
@[simp] theorem State.raise_st (k : FaultKind) (a : Addr) (w : Word) : (s.raise k a w).st = s.st := rfl
@[simp] theorem State.raise_fb (k : FaultKind) (a : Addr) (w : Word) : (s.raise k a w).fb = s.fb := rfl
@[simp] theorem State.raise_key (k : FaultKind) (a : Addr) (w : Word) : (s.raise k a w).key = s.key := rfl
@[simp] theorem State.raise_redraw (k : FaultKind) (a : Addr) (w : Word) : (s.raise k a w).redraw = s.redraw := rfl
@[simp] theorem State.raise_run (k : FaultKind) (a : Addr) (w : Word) : (s.raise k a w).run = .faulted := rfl
@[simp] theorem State.raise_fault (k : FaultKind) (a : Addr) (w : Word) : (s.raise k a w).fault = some ⟨k, faultCode k, a, w⟩ := rfl
@[simp] theorem State.raise_draws (k : FaultKind) (a : Addr) (w : Word) : (s.raise k a w).draws = s.draws := rfl
@[simp] theorem State.raise_agenda (k : FaultKind) (a : Addr) (w : Word) : (s.raise k a w).agenda = s.agenda := rfl
@[simp] theorem State.raise_reg (k : FaultKind) (a : Addr) (w : Word) (q : Reg) : (s.raise k a w).reg q = s.reg q := rfl
@[simp] theorem State.raise_byte (k : FaultKind) (a : Addr) (w : Word) (n : Nat) : (s.raise k a w).byte n = s.byte n := rfl

@[simp] theorem State.pressKey_mem (k : Key) (p : Bool) : (s.pressKey k p).mem = s.mem := rfl
@[simp] theorem State.pressKey_v (k : Key) (p : Bool) : (s.pressKey k p).v = s.v := rfl
@[simp] theorem State.pressKey_i (k : Key) (p : Bool) : (s.pressKey k p).i = s.i := rfl
@[simp] theorem State.pressKey_pc (k : Key) (p : Bool) : (s.pressKey k p).pc = s.pc := rfl
@[simp] theorem State.pressKey_sp (k : Key) (p : Bool) : (s.pressKey k p).sp = s.sp := rfl
@[simp] theorem State.pressKey_stack (k : Key) (p : Bool) : (s.pressKey k p).stack = s.stack := rfl
@[simp] theorem State.pressKey_dt (k : Key) (p : Bool) : (s.pressKey k p).dt = s.dt := rfl
@[simp] theorem State.pressKey_st (k : Key) (p : Bool) : (s.pressKey k p).st = s.st := rfl
@[simp] theorem State.pressKey_fb (k : Key) (p : Bool) : (s.pressKey k p).fb = s.fb := rfl
@[simp] theorem State.pressKey_key (k : Key) (p : Bool) : (s.pressKey k p).key = s.key.set k p := rfl
@[simp] theorem State.pressKey_redraw (k : Key) (p : Bool) : (s.pressKey k p).redraw = s.redraw := rfl
@[simp] theorem State.pressKey_run (k : Key) (p : Bool) : (s.pressKey k p).run = s.run := rfl
@[simp] theorem State.pressKey_fault (k : Key) (p : Bool) : (s.pressKey k p).fault = s.fault := rfl
@[simp] theorem State.pressKey_draws (k : Key) (p : Bool) : (s.pressKey k p).draws = s.draws := rfl
@[simp] theorem State.pressKey_agenda (k : Key) (p : Bool) : (s.pressKey k p).agenda = s.agenda := rfl
@[simp] theorem State.pressKey_reg (k : Key) (p : Bool) (q : Reg) : (s.pressKey k p).reg q = s.reg q := rfl
@[simp] theorem State.pressKey_byte (k : Key) (p : Bool) (n : Nat) : (s.pressKey k p).byte n = s.byte n := rfl

@[simp] theorem State.clearRedraw_mem : (s.clearRedraw).mem = s.mem := rfl
@[simp] theorem State.clearRedraw_v : (s.clearRedraw).v = s.v := rfl
@[simp] theorem State.clearRedraw_i : (s.clearRedraw).i = s.i := rfl
@[simp] theorem State.clearRedraw_pc : (s.clearRedraw).pc = s.pc := rfl
@[simp] theorem State.clearRedraw_sp : (s.clearRedraw).sp = s.sp := rfl
@[simp] theorem State.clearRedraw_stack : (s.clearRedraw).stack = s.stack := rfl
@[simp] theorem State.clearRedraw_dt : (s.clearRedraw).dt = s.dt := rfl
@[simp] theorem State.clearRedraw_st : (s.clearRedraw).st = s.st := rfl
@[simp] theorem State.clearRedraw_fb : (s.clearRedraw).fb = s.fb := rfl
@[simp] theorem State.clearRedraw_key : (s.clearRedraw).key = s.key := rfl
@[simp] theorem State.clearRedraw_redraw : (s.clearRedraw).redraw = false := rfl
@[simp] theorem State.clearRedraw_run : (s.clearRedraw).run = s.run := rfl
@[simp] theorem State.clearRedraw_fault : (s.clearRedraw).fault = s.fault := rfl
@[simp] theorem State.clearRedraw_draws : (s.clearRedraw).draws = s.draws := rfl
@[simp] theorem State.clearRedraw_agenda : (s.clearRedraw).agenda = s.agenda := rfl
@[simp] theorem State.clearRedraw_reg (q : Reg) : (s.clearRedraw).reg q = s.reg q := rfl
@[simp] theorem State.clearRedraw_byte (n : Nat) : (s.clearRedraw).byte n = s.byte n := rfl

@[simp] theorem State.advance_mem : (s.advance).mem = s.mem := rfl
@[simp] theorem State.advance_v : (s.advance).v = s.v := rfl
@[simp] theorem State.advance_i : (s.advance).i = s.i := rfl
@[simp] theorem State.advance_pc : (s.advance).pc = s.pc + 2#12 := rfl
@[simp] theorem State.advance_sp : (s.advance).sp = s.sp := rfl
@[simp] theorem State.advance_stack : (s.advance).stack = s.stack := rfl
@[simp] theorem State.advance_dt : (s.advance).dt = s.dt := rfl
@[simp] theorem State.advance_st : (s.advance).st = s.st := rfl
@[simp] theorem State.advance_fb : (s.advance).fb = s.fb := rfl
@[simp] theorem State.advance_key : (s.advance).key = s.key := rfl
@[simp] theorem State.advance_redraw : (s.advance).redraw = s.redraw := rfl
@[simp] theorem State.advance_run : (s.advance).run = s.run := rfl
@[simp] theorem State.advance_fault : (s.advance).fault = s.fault := rfl
@[simp] theorem State.advance_draws : (s.advance).draws = s.draws := rfl
@[simp] theorem State.advance_agenda : (s.advance).agenda = s.agenda := rfl
@[simp] theorem State.advance_reg (q : Reg) : (s.advance).reg q = s.reg q := rfl
@[simp] theorem State.advance_byte (n : Nat) : (s.advance).byte n = s.byte n := rfl

@[simp] theorem tick_mem : (tick s).mem = s.mem := rfl
@[simp] theorem tick_v : (tick s).v = s.v := rfl
@[simp] theorem tick_i : (tick s).i = s.i := rfl
@[simp] theorem tick_pc : (tick s).pc = s.pc := rfl
@[simp] theorem tick_sp : (tick s).sp = s.sp := rfl
@[simp] theorem tick_stack : (tick s).stack = s.stack := rfl
@[simp] theorem tick_dt : (tick s).dt = countDown s.dt := rfl
@[simp] theorem tick_st : (tick s).st = countDown s.st := rfl
@[simp] theorem tick_fb : (tick s).fb = s.fb := rfl
@[simp] theorem tick_key : (tick s).key = s.key := rfl
@[simp] theorem tick_redraw : (tick s).redraw = s.redraw := rfl
@[simp] theorem tick_run : (tick s).run = s.run := rfl
@[simp] theorem tick_fault : (tick s).fault = s.fault := rfl
@[simp] theorem tick_draws : (tick s).draws = s.draws := rfl
@[simp] theorem tick_agenda : (tick s).agenda = s.agenda := rfl

theorem State.reg_setReg (r q : Reg) (b : Byte) :
    (s.setReg r b).reg q = if q = r then b else s.reg q := by
  simp only [State.reg, State.setReg, Fin.getElem_fin, Vector.getElem_set, Fin.ext_iff, eq_comm]

@[simp] theorem State.reg_setReg_same (r : Reg) (b : Byte) : (s.setReg r b).reg r = b := by
  simp [State.reg_setReg]

@[simp] theorem State.reg_setReg_ne (r q : Reg) (b : Byte) (h : q ≠ r) : (s.setReg r b).reg q = s.reg q := by
  simp [State.reg_setReg, h]

/-- Two register files that read alike are the same data. -/
theorem State.regs_ext (t : State) (h : ∀ q, t.reg q = s.reg q) : t.v = s.v := by
  apply Vector.ext
  intro j hj
  exact h ⟨j, hj⟩

theorem State.setResultFlag_eq (x : Reg) (r f : Byte) :
    s.setResultFlag x r f = (s.setReg x r).setReg vf f := rfl

/-- The flag stays in VF whichever register receives the result (42_alu R170). -/
@[simp] theorem State.setResultFlag_vf (x : Reg) (r f : Byte) : (s.setResultFlag x r f).reg vf = f := by
  simp [State.setResultFlag]

/-- A result register other than VF keeps the result. -/
theorem State.setResultFlag_result (x : Reg) (r f : Byte) (h : x ≠ vf) : (s.setResultFlag x r f).reg x = r := by
  simp [State.setResultFlag, h]

/-- Every other register is unchanged. -/
theorem State.setResultFlag_other (x q : Reg) (r f : Byte) (hx : q ≠ x) (hf : q ≠ vf) :
    (s.setResultFlag x r f).reg q = s.reg q := by
  simp [State.setResultFlag, hx, hf]

end Sys2Proof.Machine
end

