-- ==== Sys2Proof/Laws/Memory.lean ====
section
/-! SUPPORT. The laws of memory: a read after a write, what a write leaves alone, and that every memory operation keeps the
canonical form. -/

namespace Sys2Proof.Machine

theorem memRead_filter_ne (m : List Host.Cell) (a k : Nat) (h : k ≠ a) :
    memRead (m.filter (fun c => c.1 ≠ a)) k = memRead m k := by
  induction m with
  | nil => rfl
  | cons c rest ih =>
    obtain ⟨j, b⟩ := c
    by_cases hj : j = a
    · have : ¬ j = k := fun e => h (e ▸ hj)
      simp_all [memRead]
    · simp_all [memRead]

theorem memRead_filter_same (m : List Host.Cell) (a : Nat) :
    memRead (m.filter (fun c => c.1 ≠ a)) a = resetByte a := by
  induction m with
  | nil => rfl
  | cons c rest ih =>
    obtain ⟨j, b⟩ := c
    by_cases hj : j = a <;> simp_all [memRead]

theorem memRead_memInsert (m : List Host.Cell) (a k : Nat) (b : Byte) :
    memRead (memInsert m a b) k = if k = a then b else memRead m k := by
  induction m with
  | nil =>
    by_cases h : k = a
    · simp [memInsert, memRead, h]
    · simp [memInsert, memRead, h, Ne.symm h]
  | cons c rest ih =>
    obtain ⟨j, d⟩ := c
    unfold memInsert
    split
    · by_cases h : k = a
      · simp [memRead, h]
      · simp [memRead, h, Ne.symm h]
    · split
      · subst j
        by_cases h : k = a
        · simp [memRead, h]
        · simp [memRead, h, Ne.symm h]
      · by_cases h : j = k
        · have : k ≠ a := by omega
          simp [memRead, h, this]
        · simp [memRead, h, ih]

/-- What a byte write does to every read, in any memory. -/
theorem memRead_memWrite (m : List Host.Cell) (a k : Nat) (b : Byte) :
    memRead (memWrite m a b) k = if k = a then b else memRead m k := by
  unfold memWrite
  split
  · rename_i hb
    by_cases h : k = a
    · subst h; simp only [if_true]; rw [memRead_filter_same, hb]
    · simp only [h, if_false]; exact memRead_filter_ne m a k h
  · exact memRead_memInsert m a k b

/-- A byte outside the stored range reads as before. -/
theorem memRead_storeBytes_outside (bs : List Byte) : ∀ (m : List Host.Cell) (a k : Nat),
    k < a ∨ a + bs.length ≤ k → memRead (storeBytes m a bs) k = memRead m k := by
  induction bs with
  | nil => intro m a k _; rfl
  | cons b bs ih =>
    intro m a k h
    have h' : k < a + 1 ∨ a + 1 + bs.length ≤ k := by simp at h; omega
    have hk : k ≠ a := by simp at h; omega
    simp [storeBytes, ih _ _ _ h', memRead_memWrite, hk]

/-- A byte inside the stored range reads as the byte stored there. -/
theorem memRead_storeBytes_inside (bs : List Byte) : ∀ (m : List Host.Cell) (a j : Nat) (h : j < bs.length),
    memRead (storeBytes m a bs) (a + j) = bs[j] := by
  induction bs with
  | nil => intro m a j h; simp at h
  | cons b bs ih =>
    intro m a j h
    cases j with
    | zero =>
      have := memRead_storeBytes_outside bs (memWrite m a b) (a + 1) a (by omega)
      simp [storeBytes, this, memRead_memWrite]
    | succ j =>
      have := ih (memWrite m a b) (a + 1) j (by simpa using h)
      simpa [storeBytes, Nat.add_comm, Nat.add_left_comm] using this

theorem wf_nil : Memory.wf [] := ⟨List.Pairwise.nil, by simp⟩

theorem wf_filter (m : List Host.Cell) (p : Host.Cell → Bool) (h : Memory.wf m) : Memory.wf (m.filter p) :=
  ⟨h.1.filter p, fun c hc => h.2 c (List.mem_of_mem_filter hc)⟩

theorem mem_memInsert {m : List Host.Cell} {a : Nat} {b : Byte} {c : Host.Cell}
    (h : c ∈ memInsert m a b) : c = (a, b) ∨ c ∈ m := by
  induction m with
  | nil => simpa [memInsert] using h
  | cons d rest ih =>
    obtain ⟨k, e⟩ := d
    unfold memInsert at h
    split at h
    · simpa using h
    · split at h
      · simp only [List.mem_cons] at h ⊢; tauto
      · simp only [List.mem_cons] at h ⊢; tauto

theorem memInsert_rising {m : List Host.Cell} (a : Nat) (b : Byte)
    (h : m.Pairwise (fun c d => c.1 < d.1)) : (memInsert m a b).Pairwise (fun c d => c.1 < d.1) := by
  induction m with
  | nil => simp [memInsert]
  | cons d rest ih =>
    obtain ⟨k, e⟩ := d
    rw [List.pairwise_cons] at h
    unfold memInsert
    split
    · rename_i hak
      refine List.pairwise_cons.2 ⟨fun c hc => ?_, List.pairwise_cons.2 h⟩
      rcases List.mem_cons.1 hc with rfl | hc
      · exact hak
      · exact lt_trans hak (h.1 c hc)
    · split
      · rename_i hka
        subst hka
        exact List.pairwise_cons.2 ⟨h.1, h.2⟩
      · refine List.pairwise_cons.2 ⟨fun c hc => ?_, ih h.2⟩
        rcases mem_memInsert hc with rfl | hc
        · show k < a
          omega
        · exact h.1 c hc

/-- A byte write inside memory keeps the canonical form. -/
theorem wf_memWrite {m : List Host.Cell} {a : Nat} (b : Byte) (ha : a ≤ Config.addrMax) (h : Memory.wf m) :
    Memory.wf (memWrite m a b) := by
  unfold memWrite
  split
  · exact wf_filter m _ h
  · rename_i hb
    refine ⟨memInsert_rising a b h.1, fun c hc => ?_⟩
    rcases mem_memInsert hc with rfl | hc
    · exact ⟨ha, hb⟩
    · exact h.2 c hc

/-- A store inside memory keeps the canonical form. -/
theorem wf_storeBytes (bs : List Byte) : ∀ {m : List Host.Cell} {a : Nat},
    a + bs.length ≤ Config.addrMax + 1 → Memory.wf m → Memory.wf (storeBytes m a bs) := by
  induction bs with
  | nil => intro m a _ h; exact h
  | cons b bs ih =>
    intro m a hl h
    simp only [List.length_cons] at hl
    exact ih (by omega) (wf_memWrite b (by omega) h)

/-- The memory after reset is canonical. -/
theorem reset_wf : Memory.wf State.reset.mem := wf_nil

/-- The memory after `init` is canonical, whatever the font. -/
theorem init_wf (f : Font) : Memory.wf (State.init f).mem :=
  wf_storeBytes f.toList (by simp) reset_wf

/-- The memory after `load` is canonical when it was before. -/
theorem load_wf {s : State} (bytes : List Byte) (h : Memory.wf s.mem) : Memory.wf (s.load bytes).mem :=
  wf_storeBytes _ (by simp [loadLimit]; omega) h

end Sys2Proof.Machine
end

