-- ==== Sys2Proof/Laws/Ops.lean ====
section
/-! SUPPORT. One lemma per shared operation that says everything it can do. -/

namespace Sys2Proof.Machine

theorem pcPasses_iff (n : Nat) : pcPasses n = true ↔ 0xFFF < n := by simp [pcPasses]

theorem rangeOk_iff (a n : Nat) : rangeOk a n = true ↔ n = 0 ∨ a + n ≤ 0x1000 := by
  simp [rangeOk]

/-- Raising a fault in an instruction always answers a next state, the faulted one. -/
theorem raiseIn_next (k : FaultKind) (i : Instr) (s : State) :
    raiseIn k i s = .next (s.raise k (s.pc - 2#12) (encode i)) := rfl

/-- Everything a conditional skip can do (40_engine_cycle R104). -/
theorem skipIf_cases (c : Bool) (i : Instr) (s : State) :
    (c = false ∧ skipIf c i s = .next s) ∨
    (c = true ∧ s.pc.toNat + 2 ≤ 0xFFF ∧ skipIf c i s = .next (s.setPc (s.pc + 2#12))) ∨
    (c = true ∧ 0xFFF < s.pc.toNat + 2 ∧ skipIf c i s = raiseIn .addressOverflow i s) := by
  cases c with
  | false => exact .inl ⟨rfl, rfl⟩
  | true =>
    by_cases h : 0xFFF < s.pc.toNat + 2
    · exact .inr (.inr ⟨rfl, h, by simp [skipIf, pcPasses, h]⟩)
    · exact .inr (.inl ⟨rfl, by omega, by simp [skipIf, pcPasses, h]⟩)

/-- Everything a push can do (41_flow R131). -/
theorem push_cases (a : Addr) (s : State) :
    (s.sp.val = 16 ∧ push a s = none) ∨
    (∃ h : s.sp.val < 16, push a s =
      some { s with stack := s.stack.set s.sp.val a, sp := ⟨s.sp.val + 1, by omega⟩ }) := by
  by_cases h : s.sp.val < 16
  · exact .inr ⟨h, by simp [push, h]⟩
  · exact .inl ⟨by have := s.sp.isLt; omega, by simp [push, h]⟩

/-- Everything a pop can do (41_flow R132). -/
theorem pop_cases (s : State) :
    (s.sp.val = 0 ∧ pop s = none) ∨
    (∃ h : 0 < s.sp.val, pop s =
      some (s.stack[s.sp.val - 1], { s with sp := ⟨s.sp.val - 1, by omega⟩ })) := by
  by_cases h : 0 < s.sp.val
  · exact .inr ⟨h, by simp [pop, h]⟩
  · exact .inl ⟨by omega, by unfold pop; rw [dif_neg h]⟩

/-- A register value as a key number. -/
theorem keyOf_eq_some (b : Byte) (k : Key) : keyOf b = some k ↔ b.toNat = k.val := by
  unfold keyOf
  split
  · simp [Fin.ext_iff]
  · have := k.isLt
    simp; omega

theorem keyOf_eq_none (b : Byte) : keyOf b = none ↔ 0xF < b.toNat := by
  unfold keyOf
  split <;> simp <;> omega

/-- The register range of FX55 and FX65 holds exactly the registers up to X. -/
theorem mem_regsUpTo (x q : Reg) : q ∈ regsUpTo x ↔ q ≤ x := by
  revert x q; decide

theorem regsUpTo_length (x : Reg) : (regsUpTo x).length = x.val + 1 := by
  revert x; decide

theorem regsUpTo_getElem (x : Reg) (j : Nat) (h : j < (regsUpTo x).length) :
    ((regsUpTo x)[j]).val = j := by
  have hx : j ≤ x.val := by rw [regsUpTo_length] at h; omega
  have key : ∀ (x : Reg) (q : Fin 16) (_ : q.val ≤ x.val), (regsUpTo x)[q.val]? = some q := by decide
  have := key x ⟨j, by omega⟩ hx
  rw [List.getElem?_eq_getElem h] at this
  exact congrArg Fin.val (Option.some.inj this)

@[simp] theorem regBytes_length (x : Reg) (s : State) : (regBytes x s).length = x.val + 1 := by
  simp [regBytes, regsUpTo_length]

@[simp] theorem decimalDigits_length (b : Byte) : (decimalDigits b).length = 3 := rfl

theorem loadRegs_cons (a : Nat) (s t : State) (j : Reg) (rs : List Reg) :
    (j :: rs).foldl (fun t j => t.setReg j (s.byte (a + j.val))) t =
      rs.foldl (fun t j => t.setReg j (s.byte (a + j.val))) (t.setReg j (s.byte (a + j.val))) := rfl

/-- What a run of register loads leaves in each register, and in every other field. -/
theorem loadRegs_fold (a : Nat) (s : State) (rs : List Reg) : ∀ t : State,
    (∀ q, (rs.foldl (fun t j => t.setReg j (s.byte (a + j.val))) t).reg q =
      if q ∈ rs then s.byte (a + q.val) else t.reg q) ∧
    ∃ v, rs.foldl (fun t j => t.setReg j (s.byte (a + j.val))) t = { t with v := v } := by
  induction rs with
  | nil => intro t; exact ⟨fun q => by simp, t.v, rfl⟩
  | cons j rs ih =>
    intro t
    obtain ⟨hr, v, hv⟩ := ih (t.setReg j (s.byte (a + j.val)))
    refine ⟨fun q => ?_, v, ?_⟩
    · rw [loadRegs_cons, hr]
      by_cases hq : q ∈ rs
      · simp [hq]
      · by_cases e : q = j
        · subst e; simp [hq]
        · simp [hq, e]
    · rw [loadRegs_cons, hv]; rfl

/-- The registers after FX65's loads (43_index_memory R250). -/
theorem loadRegs_reg (a : Nat) (s : State) (rs : List Reg) (q : Reg) :
    (loadRegs a s rs).reg q = if q ∈ rs then s.byte (a + q.val) else s.reg q :=
  (loadRegs_fold a s rs s).1 q

/-- FX65's loads change nothing but registers. -/
theorem loadRegs_frame (a : Nat) (s : State) (rs : List Reg) : ∃ v, loadRegs a s rs = { s with v := v } :=
  (loadRegs_fold a s rs s).2

/-- One plotted cell: every cell of the buffer after it (44_display R265). -/
theorem plot_cell (x y : Nat) (c : Canvas) (cx : Fin 64) (cy : Fin 32) :
    (plot x y c).fb[cy][cx] = if x = cx.val ∧ y = cy.val then !(c.fb[cy][cx]) else c.fb[cy][cx] := by
  unfold plot
  split
  · rename_i h
    by_cases hy : y = cy.val
    · subst hy
      by_cases hx : x = cx.val
      · subst hx; simp
      · simp [hx]
    · simp [hy]
  · rename_i h
    have : ¬ (x = cx.val ∧ y = cy.val) := by
      rintro ⟨rfl, rfl⟩; exact h ⟨cx.isLt, cy.isLt⟩
    simp [this]

/-- One plotted cell: whether it collided (44_display R266); outside the buffer it is clipped (R267). -/
theorem plot_collided (x y : Nat) (c : Canvas) :
    (plot x y c).collided = (c.collided || (if h : x < 64 ∧ y < 32 then (c.fb[y]'h.2)[x] else false)) := by
  unfold plot
  split <;> simp

/-- Everything one step can do (40_engine_cycle R101). -/
theorem step_cases (s : State) :
    (s.run = .faulted ∧ step s = .fault .faulted) ∨
    (s.run ≠ .faulted ∧ step s = runEvent s.agenda.pop.1 { s with agenda := s.agenda.pop.2 }) := by
  unfold step stepAgenda takeEvent
  cases hr : s.run <;> simp

/-- Everything the taking of one event can do (40_engine_cycle R101). -/
theorem takeEvent_cases (e : Event) (s : State) :
    (s.run = .faulted ∧ takeEvent e s = .fault .faulted) ∨ (s.run ≠ .faulted ∧ takeEvent e s = runEvent e s) := by
  unfold takeEvent
  cases hr : s.run <;> simp

theorem Agenda.pop_before (e : Event) (a : Agenda) : (Agenda.before e a).pop = (e, a) := rfl

theorem Agenda.pop_free (n : Nat) : (Agenda.free n).pop = (Config.schedule n, .free (n + 1)) := rfl

/-- The event a cycle begins with comes next, and goes to its end. -/
theorem Agenda.pop_cycle (e : Event) (es : List Event) :
    (Agenda.cycle e es).pop.1 = e ∧ ∃ f fs, (Agenda.cycle e es).pop.2 = .cycle f fs ∧ f :: fs = es ++ [e] := by
  cases es with
  | nil => exact ⟨rfl, e, [], rfl, rfl⟩
  | cons f fs => exact ⟨rfl, f, fs ++ [e], rfl, rfl⟩

end Sys2Proof.Machine
end

