-- ==== Sys2Proof/Laws/PerInstr.lean ====
section
/-! SUPPORT. Statements about every instruction as syntax, one lemma per constructor. -/

namespace Sys2Proof.Laws.OpcodeRow

/-- The word an instruction assembles to is one its own row of the opcode table selects (30_encoding R87, R90). -/
def Statement (i : Instr) : Prop := rowSelects (rowOf i) (encode i) = true

theorem cls : Statement .cls := by unfold Statement; decide

theorem ret : Statement .ret := by unfold Statement; decide

theorem jp (nnn : Addr) : Statement (.jp nnn) := by
  simp [Statement, rowSelects, rowOf, encode, or_and_distrib]

theorem call (nnn : Addr) : Statement (.call nnn) := by
  simp [Statement, rowSelects, rowOf, encode, or_and_distrib]

theorem seImm (x : Reg) (nn : Byte) : Statement (.seImm x nn) := by
  simp [Statement, rowSelects, rowOf, encode, or_and_distrib]

theorem sneImm (x : Reg) (nn : Byte) : Statement (.sneImm x nn) := by
  simp [Statement, rowSelects, rowOf, encode, or_and_distrib]

theorem seReg (x : Reg) (y : Reg) : Statement (.seReg x y) := by
  simp [Statement, rowSelects, rowOf, encode, or_and_distrib]

theorem ldImm (x : Reg) (nn : Byte) : Statement (.ldImm x nn) := by
  simp [Statement, rowSelects, rowOf, encode, or_and_distrib]

theorem addImm (x : Reg) (nn : Byte) : Statement (.addImm x nn) := by
  simp [Statement, rowSelects, rowOf, encode, or_and_distrib]

theorem ldReg (x : Reg) (y : Reg) : Statement (.ldReg x y) := by
  simp [Statement, rowSelects, rowOf, encode, or_and_distrib]

theorem orReg (x : Reg) (y : Reg) : Statement (.orReg x y) := by
  simp [Statement, rowSelects, rowOf, encode, or_and_distrib]

theorem andReg (x : Reg) (y : Reg) : Statement (.andReg x y) := by
  simp [Statement, rowSelects, rowOf, encode, or_and_distrib]

theorem xorReg (x : Reg) (y : Reg) : Statement (.xorReg x y) := by
  simp [Statement, rowSelects, rowOf, encode, or_and_distrib]

theorem addReg (x : Reg) (y : Reg) : Statement (.addReg x y) := by
  simp [Statement, rowSelects, rowOf, encode, or_and_distrib]

theorem subReg (x : Reg) (y : Reg) : Statement (.subReg x y) := by
  simp [Statement, rowSelects, rowOf, encode, or_and_distrib]

theorem shr (x : Reg) (y : Reg) : Statement (.shr x y) := by
  simp [Statement, rowSelects, rowOf, encode, or_and_distrib]

theorem subn (x : Reg) (y : Reg) : Statement (.subn x y) := by
  simp [Statement, rowSelects, rowOf, encode, or_and_distrib]

theorem shl (x : Reg) (y : Reg) : Statement (.shl x y) := by
  simp [Statement, rowSelects, rowOf, encode, or_and_distrib]

theorem sneReg (x : Reg) (y : Reg) : Statement (.sneReg x y) := by
  simp [Statement, rowSelects, rowOf, encode, or_and_distrib]

theorem ldI (nnn : Addr) : Statement (.ldI nnn) := by
  simp [Statement, rowSelects, rowOf, encode, or_and_distrib]

theorem jpV0 (nnn : Addr) : Statement (.jpV0 nnn) := by
  simp [Statement, rowSelects, rowOf, encode, or_and_distrib]

theorem rnd (x : Reg) (nn : Byte) : Statement (.rnd x nn) := by
  simp [Statement, rowSelects, rowOf, encode, or_and_distrib]

theorem drw (x : Reg) (y : Reg) (n : Nat) : Statement (.drw x y n) := by
  simp [Statement, rowSelects, rowOf, encode, or_and_distrib]

theorem skp (x : Reg) : Statement (.skp x) := by
  simp [Statement, rowSelects, rowOf, encode, or_and_distrib]

theorem sknp (x : Reg) : Statement (.sknp x) := by
  simp [Statement, rowSelects, rowOf, encode, or_and_distrib]

theorem ldVxDt (x : Reg) : Statement (.ldVxDt x) := by
  simp [Statement, rowSelects, rowOf, encode, or_and_distrib]

theorem ldVxK (x : Reg) : Statement (.ldVxK x) := by
  simp [Statement, rowSelects, rowOf, encode, or_and_distrib]

theorem ldDtVx (x : Reg) : Statement (.ldDtVx x) := by
  simp [Statement, rowSelects, rowOf, encode, or_and_distrib]

theorem ldStVx (x : Reg) : Statement (.ldStVx x) := by
  simp [Statement, rowSelects, rowOf, encode, or_and_distrib]

theorem addI (x : Reg) : Statement (.addI x) := by
  simp [Statement, rowSelects, rowOf, encode, or_and_distrib]

theorem ldF (x : Reg) : Statement (.ldF x) := by
  simp [Statement, rowSelects, rowOf, encode, or_and_distrib]

theorem ldB (x : Reg) : Statement (.ldB x) := by
  simp [Statement, rowSelects, rowOf, encode, or_and_distrib]

theorem ldMemVx (x : Reg) : Statement (.ldMemVx x) := by
  simp [Statement, rowSelects, rowOf, encode, or_and_distrib]

theorem ldVxMem (x : Reg) : Statement (.ldVxMem x) := by
  simp [Statement, rowSelects, rowOf, encode, or_and_distrib]

end Sys2Proof.Laws.OpcodeRow
end

