-- ==== Sys2Proof/Tests/Slice0.lean ====
section
/-! SUPPORT. The model's own tests, on vectors of 95_test_vectors, and a witness for the hypotheses of each statement. -/

namespace Sys2Proof.Tests

open Sys2Proof.Machine Sys2Proof.Safety

/-! ## Helpers -/

/-- The state after reset with some registers set. -/
def withRegs (rs : List (Reg × Byte)) : State := rs.foldl (fun s r => s.setReg r.1 r.2) State.reset

/-- What is seen of the next state after an instruction's execute phase. -/
def after {α : Type} (i : Instr) (s : State) (f : State → α) : Option α :=
  match exec i s with
  | .next t => some (f t)
  | .fault _ => none
  | .refused _ => none

/-- What is seen of the next state after a step. -/
def stepped {α : Type} (s : State) (f : State → α) : Option α :=
  match step s with
  | .next t => some (f t)
  | .fault _ => none
  | .refused _ => none

/-- A state with a word placed at an address and the pc there. -/
def at_ (s : State) (a : Addr) (w : Nat) : State := (s.setPc a).withFetchWord 16 w

/-- The keys with some of them pressed. -/
def keysDown (ks : List Key) : Keys := ks.foldl (fun (v : Keys) (k : Key) => v.set k.val true k.isLt) State.reset.key

/-! ## Well-formedness and decoding -/

/-- 30_encoding R82: N is a 4-bit count. -/
theorem test_wellFormed_refuses_height_16 : WellFormed (.drw 0 0 16) = false := by decide
theorem test_wellFormed_accepts_height_15 : WellFormed (.drw 15 15 15) = true := by decide

/-- Words written out from 30_encoding R87's patterns. -/
theorem test_decode_family_0_1_2 :
    decodeWord 0b0000000011100000#16 = .ok .cls ∧ decodeWord 0b0000000011101110#16 = .ok .ret ∧
    decodeWord 0b0001001000110100#16 = .ok (.jp 0x234#12) ∧
    decodeWord 0b0010111111111110#16 = .ok (.call 0xFFE#12) := by decide
theorem test_decode_skips :
    decodeWord 0b0011001101000010#16 = .ok (.seImm 3 0x42#8) ∧
    decodeWord 0b0100101011111111#16 = .ok (.sneImm 10 0xFF#8) ∧
    decodeWord 0b0101000100100000#16 = .ok (.seReg 1 2) ∧
    decodeWord 0b1001111000010000#16 = .ok (.sneReg 14 1) := by decide
theorem test_decode_immediates :
    decodeWord 0b0110101000101111#16 = .ok (.ldImm 10 0x2F#8) ∧
    decodeWord 0b0111000000000011#16 = .ok (.addImm 0 0x03#8) ∧
    decodeWord 0b1100001100001111#16 = .ok (.rnd 3 0x0F#8) := by decide
theorem test_decode_family_8 :
    decodeWord 0b1000001011110000#16 = .ok (.ldReg 2 15) ∧ decodeWord 0b1000001011110001#16 = .ok (.orReg 2 15) ∧
    decodeWord 0b1000001011110010#16 = .ok (.andReg 2 15) ∧ decodeWord 0b1000001011110011#16 = .ok (.xorReg 2 15) ∧
    decodeWord 0b1000001011110100#16 = .ok (.addReg 2 15) ∧ decodeWord 0b1000001011110101#16 = .ok (.subReg 2 15) ∧
    decodeWord 0b1000001011110110#16 = .ok (.shr 2 15) ∧ decodeWord 0b1000001011110111#16 = .ok (.subn 2 15) ∧
    decodeWord 0b1000001011111110#16 = .ok (.shl 2 15) := by decide
theorem test_decode_index_and_draw :
    decodeWord 0b1010001011110000#16 = .ok (.ldI 0x2F0#12) ∧ decodeWord 0b1011000100100011#16 = .ok (.jpV0 0x123#12) ∧
    decodeWord 0b1101000100100011#16 = .ok (.drw 1 2 3) := by decide
theorem test_decode_family_E :
    decodeWord 0b1110000110011110#16 = .ok (.skp 1) ∧ decodeWord 0b1110000110100001#16 = .ok (.sknp 1) := by decide
theorem test_decode_family_F :
    decodeWord 0b1111000100000111#16 = .ok (.ldVxDt 1) ∧ decodeWord 0b1111001100001010#16 = .ok (.ldVxK 3) ∧
    decodeWord 0b1111000000010101#16 = .ok (.ldDtVx 0) ∧ decodeWord 0b1111001000011000#16 = .ok (.ldStVx 2) ∧
    decodeWord 0b1111111100011110#16 = .ok (.addI 15) ∧ decodeWord 0b1111010000101001#16 = .ok (.ldF 4) ∧
    decodeWord 0b1111000000110011#16 = .ok (.ldB 0) ∧ decodeWord 0b1111001001010101#16 = .ok (.ldMemVx 2) ∧
    decodeWord 0b1111001001100101#16 = .ok (.ldVxMem 2) := by decide

/-- 95_test_vectors E9 to E14. -/
theorem test_decode_refuses :
    decodeWord 0x0123#16 = .error .family0 ∧ decodeWord 0x01E0#16 = .error .family0 ∧
    decodeWord 0x5121#16 = .error .family5 ∧ decodeWord 0x800C#16 = .error .family8 ∧
    decodeWord 0x912F#16 = .error .family9 ∧ decodeWord 0xE0A2#16 = .error .familyE ∧
    decodeWord 0xF075#16 = .error .familyF := by decide
theorem test_decode_bytes : decode [0x12#8, 0x34#8, 0x56#8] = .ok (.jp 0x234#12, [0x56#8]) ∧
    decode [0x12#8] = .error .truncated := by decide
theorem test_decodeTableWord : decodeTableWord 16 0xD123 = some (.drw 1 2 3) ∧ decodeTableWord 16 0x800F = none := by
  decide
theorem test_withFetchWord_runs : stepped (State.reset.withFetchWord 16 0x6A2F) (fun t => (t.reg 10, t.pc)) =
    some (0x2F#8, 0x202#12) := by decide

/-! ## The engine cycle (95_test_vectors E2 to E8, E16) -/

theorem test_fetch_at_0xFFD : stepped (at_ State.reset 0xFFD#12 0x1234) (fun t => t.pc) = some 0x234#12 := by decide
theorem test_fetch_at_0xFFE_faults : stepped (at_ State.reset 0xFFE#12 0x1234) (fun t => (t.pc, t.run, t.fault)) =
    some (0xFFE#12, .faulted, some ⟨.addressOverflow, 4, 0xFFE#12, 0x0000#16⟩) := by decide
theorem test_odd_pc : stepped (at_ State.reset 0x201#12 0x602A) (fun t => (t.reg 0, t.pc)) =
    some (0x2A#8, 0x203#12) := by decide
theorem test_reset_decodes_zero : stepped State.reset (fun t => (t.pc, t.run, t.fault)) =
    some (0x202#12, .faulted, some ⟨.decodeError, 3, 0x200#12, 0x0000#16⟩) := by decide
theorem test_skip_past_top : stepped (at_ State.reset 0xFFC#12 0x3000) (fun t => (t.pc, t.fault)) =
    some (0xFFE#12, some ⟨.addressOverflow, 4, 0xFFC#12, 0x3000#16⟩) := by decide
/-- 40_engine_cycle R101: a tick before every instruction step, and any sequence at all. -/
theorem test_agenda_events :
    (Agenda.cycle .tick [.instr]).event 0 = .tick ∧ (Agenda.cycle .tick [.instr]).event 3 = .instr ∧
    (Agenda.listed [.instr, .stop] (.free 0)).event 1 = .stop := by decide
theorem test_agenda_free : (Agenda.listed [.tick] (.free 0)).event 6 = Config.schedule 5 := rfl
/-- 60_exceptions R362: nothing is taken once faulted, a tick neither. -/
theorem test_faulted_stops : stepped { State.reset with run := .faulted, agenda := .before .tick (.cycle .instr []) } (fun t => t.dt) = none := by
  decide

/-! ## Flow (95_test_vectors F3 to F19) -/

theorem test_jp : after (.jp 0x101#12) State.reset (fun t => t.pc) = some 0x101#12 := by decide
theorem test_call : stepped (at_ State.reset 0x204#12 0x2300) (fun t => (t.pc, t.sp, t.stack[0])) =
    some (0x300#12, 1, 0x206#12) := by decide
theorem test_call_full : stepped (at_ { State.reset with sp := 16 } 0x400#12 0x2500)
    (fun t => (t.pc, t.sp, t.fault)) =
    some (0x402#12, 16, some ⟨.stackOverflow, 1, 0x400#12, 0x2500#16⟩) := by decide
theorem test_ret : stepped (at_ { State.reset with sp := 1, stack := State.reset.stack.set 0 0x206#12 } 0x300#12 0x00EE)
    (fun t => (t.pc, t.sp, t.stack[0])) = some (0x206#12, 0, 0x206#12) := by decide
theorem test_ret_empty : stepped (at_ State.reset 0x300#12 0x00EE) (fun t => (t.pc, t.sp, t.fault)) =
    some (0x302#12, 0, some ⟨.stackUnderflow, 2, 0x300#12, 0x00EE#16⟩) := by decide
theorem test_seImm : stepped (at_ (withRegs [(3, 0x42#8)]) 0x200#12 0x3342) (fun t => t.pc) = some 0x204#12 ∧
    stepped (at_ (withRegs [(3, 0x41#8)]) 0x200#12 0x3342) (fun t => t.pc) = some 0x202#12 := by decide
theorem test_sneImm : stepped (at_ (withRegs [(3, 0x41#8)]) 0x200#12 0x4342) (fun t => t.pc) = some 0x204#12 ∧
    stepped (at_ (withRegs [(3, 0x42#8)]) 0x200#12 0x4342) (fun t => t.pc) = some 0x202#12 := by decide
theorem test_seReg : stepped (at_ (withRegs [(0, 5#8), (1, 5#8)]) 0x206#12 0x5010) (fun t => t.pc) = some 0x20A#12 := by
  decide
theorem test_sneReg : stepped (at_ (withRegs [(0, 1#8), (1, 2#8)]) 0x200#12 0x9010) (fun t => t.pc) = some 0x204#12 ∧
    stepped (at_ State.reset 0x200#12 0x9220) (fun t => t.pc) = some 0x202#12 := by decide
theorem test_jpV0 : stepped (at_ (withRegs [(0, 0x01#8)]) 0x200#12 0xBFFE) (fun t => t.pc) = some 0xFFF#12 := by decide
theorem test_jpV0_past_top : stepped (at_ (withRegs [(0, 0x02#8)]) 0x200#12 0xBFFE) (fun t => (t.pc, t.fault)) =
    some (0x202#12, some ⟨.addressOverflow, 4, 0x200#12, 0xBFFE#16⟩) := by decide

/-! ## Arithmetic (95_test_vectors L2 to L36) -/

theorem test_ldImm : after (.ldImm 15 0x00#8) (withRegs [(15, 1#8)]) (fun t => t.reg 15) = some 0x00#8 := by decide
theorem test_addImm : after (.addImm 0 0x03#8) (withRegs [(0, 0xFE#8), (15, 0x77#8)]) (fun t => (t.reg 0, t.reg 15)) =
    some (0x01#8, 0x77#8) := by decide
theorem test_ldReg : after (.ldReg 0 1) (withRegs [(1, 0x33#8)]) (fun t => t.reg 0) = some 0x33#8 := by decide
theorem test_orReg : after (.orReg 0 1) (withRegs [(0, 0x3C#8), (1, 0x0F#8), (15, 0x55#8)])
    (fun t => (t.reg 0, t.reg 15)) = some (0x3F#8, 0x55#8) := by decide
theorem test_andReg : after (.andReg 0 1) (withRegs [(0, 0x3C#8), (1, 0x0F#8), (15, 0x55#8)])
    (fun t => (t.reg 0, t.reg 15)) = some (0x0C#8, 0x55#8) := by decide
theorem test_xorReg : after (.xorReg 0 1) (withRegs [(0, 0x3C#8), (1, 0x0F#8), (15, 0x55#8)])
    (fun t => (t.reg 0, t.reg 15)) = some (0x33#8, 0x55#8) := by decide
theorem test_addReg : after (.addReg 0 1) (withRegs [(0, 0xFF#8), (1, 0x01#8)]) (fun t => (t.reg 0, t.reg 15)) =
    some (0x00#8, 0x01#8) := by decide
theorem test_addReg_into_vf : after (.addReg 15 1) (withRegs [(15, 0x01#8), (1, 0x01#8)]) (fun t => t.reg 15) =
    some 0x00#8 := by decide
theorem test_subReg : after (.subReg 0 1) (withRegs [(0, 0x05#8), (1, 0x0A#8)]) (fun t => (t.reg 0, t.reg 15)) =
    some (0xFB#8, 0x00#8) := by decide
theorem test_subReg_equal : after (.subReg 0 1) (withRegs [(0, 0x33#8), (1, 0x33#8)]) (fun t => (t.reg 0, t.reg 15)) =
    some (0x00#8, 0x01#8) := by decide
theorem test_shr : after (.shr 0 1) (withRegs [(0, 0x99#8), (1, 0x05#8)]) (fun t => (t.reg 0, t.reg 1, t.reg 15)) =
    some (0x02#8, 0x05#8, 0x01#8) := by decide
theorem test_shr_from_vf : after (.shr 0 15) (withRegs [(15, 0x03#8)]) (fun t => (t.reg 0, t.reg 15)) =
    some (0x01#8, 0x01#8) := by decide
theorem test_subn : after (.subn 0 1) (withRegs [(0, 0x0A#8), (1, 0x05#8)]) (fun t => (t.reg 0, t.reg 15)) =
    some (0xFB#8, 0x00#8) := by decide
theorem test_subn_into_vf : after (.subn 15 1) (withRegs [(15, 0x05#8), (1, 0x0A#8)]) (fun t => t.reg 15) =
    some 0x01#8 := by decide
theorem test_shl : after (.shl 0 1) (withRegs [(1, 0x81#8)]) (fun t => (t.reg 0, t.reg 15)) = some (0x02#8, 0x01#8) := by
  decide
theorem test_shl_into_vf : after (.shl 15 1) (withRegs [(1, 0x81#8)]) (fun t => t.reg 15) = some 0x01#8 := by decide
/-- L36: an immediate of 0 gives 0 whatever the byte is. -/
theorem test_rnd_zero : after (.rnd 3 0x00#8) (withRegs [(3, 7#8)]) (fun t => (t.reg 3, t.draws)) =
    some (0x00#8, 1) := by
  show some (Config.rnd 0 &&& 0x00#8, 1) = _
  rw [BitVec.and_zero]
/-- The alternatives of 95_test_vectors, part 2 under the ALU table: SHIFT_SRC = VX and LOGIC_RESETS_VF = true. -/
theorem test_parameter_alternatives :
    shiftOperand .vx 0 1 (withRegs [(0, 0x05#8)]) = 0x05#8 ∧
    ((withRegs [(15, 0x55#8)]).setLogicResult true 0 0x3F#8).reg 15 = 0x00#8 ∧
    indexFlag .keep 0x205 0x55#8 = 0x55#8 := by decide

/-! ## Index and memory (95_test_vectors M1 to M24) -/

theorem test_ldI : after (.ldI 0x2F0#12) State.reset (fun t => t.i) = some 0x02F0#16 := by decide
theorem test_addI : after (.addI 0) ((withRegs [(0, 0x01#8)]).setI 0x0FFF#16) (fun t => (t.i, t.reg 15)) =
    some (0x1000#16, 0x01#8) := by decide
theorem test_addI_wraps : after (.addI 0) ((withRegs [(0, 0x02#8)]).setI 0xFFFF#16) (fun t => (t.i, t.reg 15)) =
    some (0x0001#16, 0x01#8) := by decide
theorem test_ldF : after (.ldF 4) (withRegs [(4, 0xFF#8)]) (fun t => t.i) = some 0x04FB#16 := by decide
theorem test_ldB : after (.ldB 0) ((withRegs [(0, 0xFE#8)]).setI 0x300#16)
    (fun t => (t.byte 0x300, t.byte 0x301, t.byte 0x302, t.i)) = some (2#8, 5#8, 4#8, 0x300#16) := by decide
theorem test_ldB_past_top : stepped (at_ (State.reset.setI 0xFFE#16) 0x200#12 0xF033)
    (fun t => (t.pc, t.byte 0xFFE, t.fault)) =
    some (0x202#12, 0#8, some ⟨.addressOverflow, 4, 0x200#12, 0xF033#16⟩) := by decide
theorem test_ldMemVx : after (.ldMemVx 2) ((withRegs [(0, 1#8), (1, 2#8), (2, 3#8), (3, 4#8)]).setI 0x400#16)
    (fun t => (t.byte 0x400, t.byte 0x401, t.byte 0x402, t.byte 0x403, t.i)) =
    some (1#8, 2#8, 3#8, 0#8, 0x403#16) := by decide
theorem test_ldMemVx_font : after (.ldMemVx 0) (withRegs [(0, 0x12#8)]) (fun t => (t.byte 0, t.byte 1, t.i)) =
    some (0x12#8, 0x90#8, 1#16) := by decide
theorem test_ldVxMem : after (.ldVxMem 2) (((withRegs [(3, 9#8)]).store 0x300 [2#8, 5#8, 4#8]).setI 0x300#16)
    (fun t => (t.reg 0, t.reg 1, t.reg 2, t.reg 3, t.i)) = some (2#8, 5#8, 4#8, 9#8, 0x303#16) := by decide
theorem test_ldVxMem_past_top : after (.ldVxMem 1) (State.reset.setI 0xFFF#16) (fun t => (t.reg 0, t.i, t.run)) =
    some (0#8, 0xFFF#16, .faulted) := by decide
/-- Writing back the reset content removes the entry, so the memory is the same data. -/
theorem test_store_is_canonical : storeBytes (storeBytes [] 0x300 [1#8, 2#8]) 0x300 [0#8, 0#8] = [] := by decide

/-! ## Display (95_test_vectors D1 to D12) -/

theorem test_cls : after .cls { withRegs [(15, 0x5A#8)] with fb := State.reset.fb.set 3 (Vector.replicate 64 true) }
    (fun t => (t.fb == blankBuffer, t.reg 15, t.redraw)) = some (true, 0x5A#8, true) := by decide
/-- D6: the origin wraps to (60, 30) and columns 64 to 67 are clipped. -/
theorem test_drw_clips : after (.drw 1 2 1) (((withRegs [(1, 0x7C#8), (2, 0x3E#8)]).store 0x300 [0xFF#8]).setI 0x300#16)
    (fun t => (t.fb[30][59], t.fb[30][60], t.fb[30][63], t.fb[30][0], t.reg 15, t.redraw)) =
    some (false, true, true, false, 0#8, true) := by decide
/-- D4: one cell collides, the next is turned on. -/
theorem test_drw_collides : after (.drw 0 1 1)
    (({ State.reset with fb := State.reset.fb.set 0 (State.reset.fb[0].set 0 true) }.store 0x300 [0xC0#8]).setI 0x300#16)
    (fun t => (t.fb[0][0], t.fb[0][1], t.reg 15)) = some (false, true, 1#8) := by decide

/-! ## Keypad (95_test_vectors K1 to K14) -/

theorem test_skp : stepped (at_ ((withRegs [(1, 0x0A#8)]).pressKey 10 true) 0x200#12 0xE19E) (fun t => t.pc) =
    some 0x204#12 := by decide
theorem test_skp_key_before_bound : stepped (at_ (withRegs [(1, 0x13#8)]) 0xFFC#12 0xE19E) (fun t => t.fault) =
    some (some ⟨.keyIndexError, 5, 0xFFC#12, 0xE19E#16⟩) := by decide
theorem test_sknp : stepped (at_ (withRegs [(1, 0x0A#8)]) 0x200#12 0xE1A1) (fun t => t.pc) = some 0x204#12 := by decide
theorem test_ldVxK : stepped (at_ (State.reset.pressKey 4 true) 0x200#12 0xF40A) (fun t => (t.run, t.pc)) =
    some (.waitKey 4 (keysDown [4]), 0x202#12) := by decide
theorem test_sample_lowest : stepped (State.reset.setRun (.waitKey 3 (keysDown [2, 7]))) (fun t => (t.reg 3, t.run, t.pc)) =
    some (2#8, .running, 0x200#12) := by decide
theorem test_sample_waits : stepped ((({ State.reset with key := keysDown [5, 6] }).setRun (.waitKey 3 (keysDown [5]))))
    (fun t => t.run) = some (.waitKey 3 (keysDown [5, 6])) := by decide

/-! ## Timers and the host (95_test_vectors T1 to T8, B2, B3) -/

theorem test_ldVxDt : after (.ldVxDt 1) (State.reset.setDt 0x3C#8) (fun t => t.reg 1) = some 0x3C#8 := by decide
theorem test_ldDtVx : after (.ldDtVx 0) (withRegs [(0, 0x02#8)]) (fun t => t.dt) = some 0x02#8 := by decide
theorem test_ldStVx : after (.ldStVx 2) (withRegs [(2, 0x10#8)]) (fun t => (t.st, t.soundActive)) =
    some (0x10#8, true) := by decide
theorem test_tick : stepped { State.reset with dt := 2#8, st := 0#8, agenda := .cycle .tick [.instr] }
    (fun t => (t.dt, t.st, t.agenda)) = some (1#8, 0#8, .cycle .instr [.tick]) := by decide
theorem test_host_events :
    stepped { State.reset with agenda := .before (.setKey 5 true) (.cycle .instr []) } (fun t => (t.key[5], t.pc)) = some (true, 0x200#12) ∧
    stepped { State.reset with redraw := true, agenda := .before .clearRedraw (.cycle .instr []) } (fun t => t.redraw) = some false := by decide
theorem test_load : ((launch [0x12#8, 0x34#8, 0x56#8]).byte 0x200, (launch [0x12#8, 0x34#8, 0x56#8]).byte 0x202,
    (launch [0x12#8, 0x34#8, 0x56#8]).byte 0x203, (launch []).byte 0x032) = (0x12#8, 0x56#8, 0#8, 0xF0#8) := by decide

/-- R403: another font than the default can be named, and the launch keeps it. -/
theorem test_init_font : ((State.init (Vector.replicate 80 0x55#8)).byte 0x04F,
    (State.init (Vector.replicate 80 0x55#8)).byte 0x050,
    (launch [0x12#8] (Vector.replicate 80 0x55#8)).byte 0x032) = (0x55#8, 0#8, 0x55#8) := by decide

/-! ## Witnesses: for each statement with hypotheses, operands and a state that meet them (one for each clause) -/

theorem witness_DecodeOfEncodeIsTheInstruction : WellFormed (.drw 15 15 15) = true := by decide
theorem witness_EncodeOfDecodeIsTheWord : decodeWord 0xDFFF#16 = .ok (.drw 15 15 15) := by decide
theorem witness_DecodeFollowsTheOpcodeTable_accepted : decodeWord 0x800E#16 = .ok (.shl 0 0) := by decide
theorem witness_DecodeFollowsTheOpcodeTable_rejected : decodeWord 0x800F#16 = .error .family8 := by decide

/-- The last pc a fetch allows, with an instruction there and the two forms of the agenda. -/
theorem witness_StepRunsTheDecodedInstruction :
    (at_ State.reset 0xFFD#12 0x1234).run = .running ∧ InstrNext (at_ State.reset 0xFFD#12 0x1234) (.cycle .instr []) ∧
    (at_ State.reset 0xFFD#12 0x1234).pc.toNat ≤ 0xFFD ∧
    decodeWord ((at_ State.reset 0xFFD#12 0x1234).byte (at_ State.reset 0xFFD#12 0x1234).pc.toNat ++
      (at_ State.reset 0xFFD#12 0x1234).byte ((at_ State.reset 0xFFD#12 0x1234).pc.toNat + 1)) = .ok (.jp 0x234#12) :=
  ⟨rfl, rfl, by decide, by decide⟩
theorem witness_InstrNext_listed :
    InstrNext { State.reset with agenda := .before .instr (.free 0) } (.free 0) := rfl

theorem witness_FetchReadsTwoBytesOrFaults_reads : (State.reset.setPc 0xFFD#12).pc.toNat ≤ 0xFFD := by decide
theorem witness_FetchReadsTwoBytesOrFaults_faults :
    0xFFD < (State.reset.setPc 0xFFE#12).pc.toNat ∧ (State.reset.setPc 0xFFE#12).run = .running ∧
    InstrNext (State.reset.setPc 0xFFE#12) (.cycle .instr []) := ⟨by decide, rfl, rfl⟩

theorem witness_DecodeSelectsARowOrFaults_row :
    (State.reset.withFetchWord 16 0x1228).run = .running ∧ InstrNext (State.reset.withFetchWord 16 0x1228) (.cycle .instr []) ∧
    fetch (State.reset.withFetchWord 16 0x1228) = some 0x1228#16 ∧
    opcodeTable.filter (fun q => rowSelects q 0x1228#16) = [⟨0x1000#16, 0xF000#16⟩] :=
  ⟨rfl, rfl, by decide, by decide⟩
theorem witness_DecodeSelectsARowOrFaults_none :
    (State.reset.withFetchWord 16 0x800F).run = .running ∧ InstrNext (State.reset.withFetchWord 16 0x800F) (.cycle .instr []) ∧
    fetch (State.reset.withFetchWord 16 0x800F) = some 0x800F#16 ∧
    ∀ r, opcodeTable.filter (fun q => rowSelects q 0x800F#16) ≠ [r] := by
  refine ⟨rfl, rfl, by decide, fun r => ?_⟩
  have : opcodeTable.filter (fun q => rowSelects q 0x800F#16) = [] := by decide
  simp [this]

theorem witness_FaultingStepIsPrecise : State.reset.run = .running ∧ InstrNext State.reset (.cycle .instr []) ∧
    ∃ t, step State.reset = .next t ∧ t.run = .faulted := ⟨rfl, rfl, _, rfl, rfl⟩
theorem witness_FaultedEngineTakesNoStep : ({ State.reset with run := .faulted } : State).run = .faulted := rfl
theorem witness_StepGoesOnUnlessFaultedOrStopped : State.reset.run ≠ .faulted ∧ State.reset.agenda.pop.1 ≠ .stop := by
  decide
theorem witness_SelfLoopLeavesTheStateUnchanged :
    AtSelfLoop (State.reset.withFetchWord 16 0x1200) ∧ InstrNext (State.reset.withFetchWord 16 0x1200) (.cycle .instr []) :=
  ⟨⟨rfl, by decide, by decide⟩, rfl⟩
theorem witness_StepKeepsTheInvariant : Inv State.reset ∧ ∃ t, step State.reset = .next t :=
  ⟨⟨reset_wf, by simp [State.reset], by simp [State.reset]⟩, _, rfl⟩
theorem witness_KeysReachOnlyKeyInstructions :
    ∀ x, Instr.cls ≠ .skp x ∧ Instr.cls ≠ .sknp x ∧ Instr.cls ≠ .ldVxK x := by decide
theorem witness_RandomReachesOnlyRnd : ∀ x nn, Instr.skp 0 ≠ .rnd x nn := by intro x nn h; cases h

theorem witness_OnlyDisplayInstructionsWriteTheScreen :
    (∃ t, exec .ret State.reset = .next t) ∧ Instr.ret ≠ .cls ∧ ∀ x y n, Instr.ret ≠ .drw x y n :=
  ⟨⟨_, rfl⟩, by decide, (by intro x y n h; cases h)⟩
theorem witness_OnlyCallAndReturnWriteTheStack :
    (∃ t, exec .cls State.reset = .next t) ∧ (∀ nnn, Instr.cls ≠ .call nnn) ∧ Instr.cls ≠ .ret :=
  ⟨⟨_, rfl⟩, (by intro nnn h; cases h), by decide⟩
theorem witness_OnlyStoresWriteMemory :
    (∃ t, exec (.ldVxMem 15) State.reset = .next t) ∧ ∀ x, Instr.ldVxMem 15 ≠ .ldB x ∧ Instr.ldVxMem 15 ≠ .ldMemVx x :=
  ⟨⟨_, rfl⟩, by decide⟩
theorem witness_OnlyTheirInstructionsWriteIndexAndTimers :
    (∃ t, exec .cls State.reset = .next t) ∧ (∀ nnn, Instr.cls ≠ .ldI nnn) ∧
    (∀ x, Instr.cls ≠ .addI x ∧ Instr.cls ≠ .ldF x ∧ Instr.cls ≠ .ldMemVx x ∧ Instr.cls ≠ .ldVxMem x) ∧
    (∀ x, Instr.cls ≠ .ldDtVx x) ∧ ∀ x, Instr.cls ≠ .ldStVx x :=
  ⟨⟨_, rfl⟩, (by intro nnn h; cases h), by decide, by decide, by decide⟩
theorem witness_OnlyFlowInstructionsMoveThePc :
    (∃ t, exec (.ldB 0) State.reset = .next t) ∧
    (∀ nnn, Instr.ldB 0 ≠ .jp nnn ∧ Instr.ldB 0 ≠ .call nnn ∧ Instr.ldB 0 ≠ .jpV0 nnn) ∧ Instr.ldB 0 ≠ .ret ∧
    (∀ x nn, Instr.ldB 0 ≠ .seImm x nn ∧ Instr.ldB 0 ≠ .sneImm x nn) ∧
    (∀ x y, Instr.ldB 0 ≠ .seReg x y ∧ Instr.ldB 0 ≠ .sneReg x y) ∧
    ∀ x, Instr.ldB 0 ≠ .skp x ∧ Instr.ldB 0 ≠ .sknp x :=
  ⟨⟨_, rfl⟩, by simp, by decide, by simp, by simp, by simp⟩
theorem witness_OnlyFlagInstructionsWriteVfUnnamed :
    (∃ t, exec (.ldVxMem 14) State.reset = .next t) ∧
    (∀ x y, Instr.ldVxMem 14 ≠ .addReg x y ∧ Instr.ldVxMem 14 ≠ .subReg x y ∧ Instr.ldVxMem 14 ≠ .shr x y ∧
      Instr.ldVxMem 14 ≠ .subn x y ∧ Instr.ldVxMem 14 ≠ .shl x y) ∧
    (∀ x y n, Instr.ldVxMem 14 ≠ .drw x y n) ∧ (∀ x, Instr.ldVxMem 14 ≠ .addI x) ∧
    (∀ nn, Instr.ldVxMem 14 ≠ .ldImm 15 nn ∧ Instr.ldVxMem 14 ≠ .addImm 15 nn ∧ Instr.ldVxMem 14 ≠ .rnd 15 nn) ∧
    (∀ y, Instr.ldVxMem 14 ≠ .ldReg 15 y ∧ Instr.ldVxMem 14 ≠ .orReg 15 y ∧ Instr.ldVxMem 14 ≠ .andReg 15 y ∧
      Instr.ldVxMem 14 ≠ .xorReg 15 y) ∧
    Instr.ldVxMem 14 ≠ .ldVxDt 15 ∧ Instr.ldVxMem 14 ≠ .ldVxMem 15 :=
  ⟨⟨_, rfl⟩, by simp, by simp, by simp, by simp, by simp, by decide, by decide⟩
theorem witness_CanonicalMemoryIsDeterminedByItsBytes :
    Memory.wf [(0x200, 5#8), (0xFFF, 1#8)] ∧ ∀ a, memRead [(0x200, 5#8), (0xFFF, 1#8)] a =
      memRead [(0x200, 5#8), (0xFFF, 1#8)] a := ⟨by decide, fun _ => rfl⟩
/-- The last range each store allows, with a fetch that reads an old byte and the first stored one. -/
theorem witness_StoredBytesAreFetched_registers :
    (0xFEF#12).toNat ≤ 0xFFD ∧ (State.reset.setI 0xFF0#16).i.toNat + (15 : Reg).val ≤ 0xFFF ∧
    byteAfterRegisters 15 ((withRegs [(0, 7#8)]).setI 0xFF0#16) 0xFEF = 0#8 ∧
    byteAfterRegisters 15 ((withRegs [(0, 7#8)]).setI 0xFF0#16) 0xFF0 = 7#8 := by decide
theorem witness_StoredBytesAreFetched_digits :
    (0xFFD#12).toNat ≤ 0xFFD ∧ (State.reset.setI 0xFFD#16).i.toNat + 2 ≤ 0xFFF ∧
    byteAfterDigits 0 ((withRegs [(0, 0xFE#8)]).setI 0xFFD#16) 0xFFD = 2#8 ∧
    byteAfterDigits 0 ((withRegs [(0, 0xFE#8)]).setI 0xFFD#16) 0xFFE = 5#8 := by decide

/-- A schedule fair to ticks, without a stop, at a self-loop with both timers running. -/
theorem witness_TimersRunOutOnlyUnderFairness_fair :
    AtSelfLoop (({ State.reset with dt := 2#8, st := 1#8 }).withFetchWord 16 0x1200) ∧
    (∀ n : Nat, (if n % 2 = 0 then Event.instr else .tick) ≠ .stop) ∧
    FairTo .tick (fun n => if n % 2 = 0 then Event.instr else .tick) := by
  refine ⟨⟨rfl, by decide, by decide⟩, fun n => ?_, fun n => ⟨2 * n + 1, by omega, ?_⟩⟩
  · split <;> decide
  · simp
theorem witness_TimersRunOutOnlyUnderFairness_none :
    AtSelfLoop (State.reset.withFetchWord 16 0x1200) ∧ (∀ n : Nat, (fun _ => Event.instr) n ≠ .stop) ∧
    ∀ n : Nat, (fun _ => Event.instr) n ≠ .tick := ⟨⟨rfl, by decide, by decide⟩, by simp, by simp⟩
theorem witness_AgendasGiveEverySequence : 1 < [Event.instr, .tick].length := by decide

theorem witness_ResetLeavesTheInitialState_font : 0x04F < 0x1000 ∧ 0x050 < 0x1000 := by decide
theorem witness_InitPreloadsTheGivenFont : 79 < 80 ∧ 80 ≤ 80 ∧ 80 ≤ 0xFFF ∧ 0xFFF < 0x1000 := by decide
theorem witness_LoadPlacesTheImage_loaded :
    0xC9F < (List.replicate 0xCA1 (0xFF#8 : Byte)).length ∧ 0xC9F < 0xCA0 :=
  ⟨by rw [List.length_replicate]; decide, by decide⟩
theorem witness_LoadPlacesTheImage_left :
    0x1FF < 0x200 ∧ 0xEA0 ≤ 0xEA0 ∧ 0x200 + (List.replicate 3 (0xFF#8 : Byte)).length ≤ 0x203 :=
  ⟨by decide, by decide, by rw [List.length_replicate]⟩
theorem witness_LoadPlacesTheImage_empty :
    InstrNext (launch []) (.cycle .instr []) ∧
    InstrNext { launch [] with agenda := .cycle .instr [.tick] } (.cycle .tick [.instr]) := ⟨rfl, rfl⟩

theorem witness_TickCountsBothTimersDown :
    ({ State.reset with agenda := .before .tick (.cycle .instr []) } : State).run ≠ .faulted ∧
    ({ State.reset with agenda := .before .tick (.cycle .instr []) } : State).agenda.pop = (.tick, .cycle .instr []) := by decide
theorem witness_HostWritesOnlyKeysAndRedraw :
    State.reset.run ≠ .faulted ∧
    ({ State.reset with agenda := .before (.setKey 15 true) (.cycle .instr []) } : State).agenda.pop = (.setKey 15 true, .cycle .instr []) ∧ (14 : Key) ≠ 15 ∧
    ({ State.reset with agenda := .before .clearRedraw (.cycle .instr []) } : State).agenda.pop = (.clearRedraw, .cycle .instr []) ∧
    ({ State.reset with agenda := .before .stop (.cycle .instr []) } : State).agenda.pop = (.stop, .cycle .instr []) := by decide
theorem witness_KeyWaitSampleTakesTheLowestRelease_released :
    InstrNext (State.reset.setRun (.waitKey 3 (keysDown [2, 7]))) (.cycle .instr []) ∧
    (keysDown [2, 7])[(2 : Key)] = true ∧ State.reset.key[(2 : Key)] = false ∧
    ∀ j : Key, j < 2 → ¬ ((keysDown [2, 7])[j] = true ∧ State.reset.key[j] = false) :=
  ⟨rfl, by decide, by decide, by decide⟩
theorem witness_KeyWaitSampleTakesTheLowestRelease_waiting :
    InstrNext (({ State.reset with key := keysDown [0, 15] }).setRun (.waitKey 3 (keysDown [15]))) (.cycle .instr []) ∧
    ∀ k : Key, (keysDown [15])[k] = true → (keysDown [0, 15])[k] = true :=
  ⟨rfl, by decide⟩
theorem witness_WaitingEngineChangesOnlyItsRegister :
    (State.reset.setRun (.waitKey 3 (keysDown [5]))).run = .waitKey 3 (keysDown [5]) ∧
    ∃ t, step (State.reset.setRun (.waitKey 3 (keysDown [5]))) = .next t := ⟨rfl, _, rfl⟩
/-- A tick during the wait: the step is no instruction step, no set_key and no clear_redraw. -/
theorem witness_WaitingEngineChangesOnlyItsRegister_tick :
    (({ State.reset with agenda := .before .tick (.cycle .instr []) }).setRun (.waitKey 3 (keysDown [5]))).run = .waitKey 3 (keysDown [5]) ∧
    (∃ t, step (({ State.reset with agenda := .before .tick (.cycle .instr []) }).setRun (.waitKey 3 (keysDown [5]))) = .next t) ∧
    (∀ rest, ¬ InstrNext (({ State.reset with agenda := .before .tick (.cycle .instr []) }).setRun (.waitKey 3 (keysDown [5]))) rest) ∧
    ∀ k b, (Agenda.before .tick (.cycle .instr [])).pop.1 ≠ .setKey k b :=
  ⟨rfl, ⟨_, rfl⟩, (by intro rest h; cases h), by decide⟩
/-- A set_key during the wait: no tick. -/
theorem witness_WaitingEngineChangesOnlyItsRegister_setKey :
    (∃ t, step (({ State.reset with agenda := .before (.setKey 5 false) (.cycle .instr []) }).setRun (.waitKey 3 (keysDown [5]))) = .next t) ∧
    (Agenda.before (.setKey 5 false) (.cycle .instr [])).pop.1 ≠ .tick := ⟨⟨_, rfl⟩, by decide⟩

theorem witness_CallPushesTheReturnAddress :
    ({ State.reset with sp := 15 } : State).sp.val < 16 ∧ ({ State.reset with sp := 16 } : State).sp.val = 16 := by decide
theorem witness_ReturnPopsTheReturnAddress :
    0 < ({ State.reset with sp := 1 } : State).sp.val ∧ State.reset.sp.val = 0 := by decide
theorem witness_ReturnAfterCallRestoresPcAndSp : ({ State.reset with sp := 15 } : State).sp.val < 16 := by decide
/-- The clauses of a skip: not taken, taken at the last pc that allows it, taken past it. -/
theorem witness_ImmediateSkips :
    State.reset.reg 15 ≠ 1#8 ∧ (State.reset.reg 15 = 0#8 ∧ (State.reset.setPc 0xFFD#12).pc.toNat + 2 ≤ 0xFFF) ∧
    0xFFF < (State.reset.setPc 0xFFE#12).pc.toNat + 2 := by decide
theorem witness_RegisterSkips :
    State.reset.reg 0 = State.reset.reg 15 ∧ (withRegs [(0, 1#8)]).reg 0 ≠ (withRegs [(0, 1#8)]).reg 15 ∧
    (State.reset.setPc 0xFFD#12).pc.toNat + 2 ≤ 0xFFF ∧ 0xFFF < (State.reset.setPc 0xFFE#12).pc.toNat + 2 := by decide
theorem witness_OffsetJumpAddsV0 :
    (0xFFE#12).toNat + ((withRegs [(0, 1#8)]).reg 0).toNat ≤ 0xFFF ∧
    0xFFF < (0xFFE#12).toNat + ((withRegs [(0, 2#8)]).reg 0).toNat := by decide
theorem witness_WritesRegAndFlag_result_kept : (14 : Reg) ≠ 15 ∧ (0 : Reg) ≠ 14 ∧ (0 : Reg) ≠ 15 := by decide
theorem witness_DecimalStore :
    (State.reset.setI 0xFFD#16).i.toNat + 2 ≤ 0xFFF ∧ 0xFFF < (State.reset.setI 0xFFE#16).i.toNat + 2 := by decide
theorem witness_RegisterStore :
    (State.reset.setI 0xFF0#16).i.toNat + (15 : Reg).val ≤ 0xFFF ∧
    0xFFF < (State.reset.setI 0xFF1#16).i.toNat + (15 : Reg).val := by decide
theorem witness_RegisterLoad :
    (State.reset.setI 0xFFF#16).i.toNat + (0 : Reg).val ≤ 0xFFF ∧ (0 : Reg) < 1 ∧
    0xFFF < (State.reset.setI 0x1000#16).i.toNat + (0 : Reg).val := by decide
theorem witness_LoadAfterStoreRestoresRegisters : (State.reset.setI 0xFF0#16).i.toNat + (15 : Reg).val ≤ 0xFFF := by decide
/-- The first cell of a sprite of one row at the origin is on, the cell after its eight columns is not. -/
theorem witness_DrawXorsTheSprite :
    (15 < 16) ∧ (State.reset.setI 0xFF1#16).i.toNat + 15 - 1 ≤ 0xFFF ∧
    (0 < 15 ∧ 0xFFF < (State.reset.setI 0xFF2#16).i.toNat + 15 - 1) ∧
    SpriteOn State.reset 0 1 1 (0 : Fin 64).val (0 : Fin 32).val ∧
    ¬ SpriteOn State.reset 0 1 1 (8 : Fin 64).val (0 : Fin 32).val := by
  refine ⟨by decide, by decide, by decide, ⟨by decide, by decide, by decide, by decide, by decide⟩, fun h => ?_⟩
  exact absurd h.2.1 (by decide)
theorem witness_DrawXorsTheSprite_collides : ∃ (cy : Fin 32) (cx : Fin 64),
    SpriteOn { State.reset with fb := State.reset.fb.set 0 (State.reset.fb[0].set 0 true) } 0 1 1 cx cy ∧
    ({ State.reset with fb := State.reset.fb.set 0 (State.reset.fb[0].set 0 true) } : State).fb[cy][cx] = true :=
  ⟨0, 0, ⟨by decide, by decide, by decide, by decide, by decide⟩, by decide⟩
theorem witness_DrawXorsTheSprite_clean : ¬ ∃ (cy : Fin 32) (cx : Fin 64),
    SpriteOn State.reset 0 1 1 cx cy ∧ State.reset.fb[cy][cx] = true := by
  rintro ⟨cy, cx, _, h⟩
  simp [State.reset] at h
theorem witness_DrawTwiceRestoresTheBuffer : (State.reset.setI 0xFF1#16).i.toNat + 15 - 1 ≤ 0xFFF ∧
    ∃ (cy : Fin 32) (cx : Fin 64), SpriteOn State.reset 0 1 1 cx cy ∧ State.reset.fb[cy][cx] = false :=
  ⟨by decide, 0, 0, ⟨by decide, by decide, by decide, by decide, by decide⟩, by decide⟩
theorem witness_DrawTwiceRestoresTheBuffer_empty : ¬ ∃ (cy : Fin 32) (cx : Fin 64),
    SpriteOn State.reset 0 1 0 cx cy ∧ State.reset.fb[cy][cx] = false := by
  rintro ⟨cy, cx, ⟨_, _, h, h', _⟩, _⟩
  omega
theorem witness_KeySkips :
    0xF < ((withRegs [(0, 0x10#8)]).reg 0).toNat ∧ ((withRegs [(0, 0x0F#8)]).reg 0).toNat = (15 : Key).val ∧
    State.reset.key[(15 : Key)] = false ∧ (State.reset.pressKey 15 true).key[(15 : Key)] = true := by decide

end Sys2Proof.Tests
end

section
/-! What an instruction neither reads nor writes: `exec_withInputs` says it once for the keys, the count of random bytes
drawn and the agenda (40_engine_cycle R108). -/

namespace Sys2Proof.Machine

open Sys2Proof.Safety

/-- The same machine under other inputs: the keys (10_state R32), the random bytes to come (log 1) and the atomic steps
to come (log 2). -/
def State.withInputs (k : Keys) (d : Nat) (a : Agenda) (s : State) : State :=
  { s with key := k, draws := d, agenda := a }

theorem mapNext_mapNext (f g : State → State) (r : Result) :
    mapNext f (mapNext g r) = mapNext (f ∘ g) r := by
  cases r <;> rfl

section
variable (k : Keys) (d : Nat) (a : Agenda) (s : State)

@[simp] theorem State.withInputs_pc : (s.withInputs k d a).pc = s.pc := rfl
@[simp] theorem State.withInputs_key : (s.withInputs k d a).key = k := rfl
@[simp] theorem State.withInputs_reg (r : Reg) : (s.withInputs k d a).reg r = s.reg r := rfl

theorem skipIf_withInputs (c : Bool) (i : Instr) :
    skipIf c i (s.withInputs k d a) = mapNext (State.withInputs k d a) (skipIf c i s) := by
  simp only [skipIf, apply_ite (mapNext _)]
  rfl

theorem push_withInputs (v : Addr) :
    push v (s.withInputs k d a) = (push v s).map (State.withInputs k d a) := by
  simp only [push, apply_dite (Option.map _)]
  rfl

theorem pop_withInputs :
    pop (s.withInputs k d a) = (pop s).map (Prod.map id (State.withInputs k d a)) := by
  simp only [pop, apply_dite (Option.map _)]
  rfl

theorem loadRegs_withInputs (n : Nat) (rs : List Reg) :
    loadRegs n (s.withInputs k d a) rs = (loadRegs n s rs).withInputs k d a :=
  List.foldl_hom (State.withInputs k d a) (fun _ _ => rfl)

/-- An instruction other than CXNN, under other random bytes, another agenda and, unless it is one of the three key
instructions, other keys, has the same effect and leaves these inputs as they are. -/
theorem exec_withInputs (i : Instr) (hrnd : ∀ x nn, i ≠ .rnd x nn)
    (hkey : k = s.key ∨ ∀ x, i ≠ .skp x ∧ i ≠ .sknp x ∧ i ≠ .ldVxK x) :
    exec i (s.withInputs k d a) = mapNext (State.withInputs k d a) (exec i s) := by
  cases i with
  | rnd x nn => exact absurd rfl (hrnd x nn)
  | seImm | sneImm | seReg | sneReg => exact skipIf_withInputs ..
  | ret =>
    simp only [exec, execRet, pop_withInputs]
    cases pop s <;> rfl
  | call nnn =>
    simp only [exec, execCall, State.withInputs_pc, push_withInputs]
    cases push s.pc s <;> rfl
  | jpV0 | drw | ldB | ldMemVx =>
    simp only [exec, execJpV0, execDrw, execLdB, execLdMemVx, apply_ite (mapNext _)]
    rfl
  | ldVxMem x =>
    simp only [exec, execLdVxMem, apply_ite (mapNext _), loadRegs_withInputs]
    rfl
  | skp x =>
    obtain rfl : k = s.key := hkey.resolve_right fun h => (h x).1 rfl
    simp only [exec, execSkp, State.withInputs_reg, State.withInputs_key, skipIf_withInputs]
    cases keyOf (s.reg x) <;> rfl
  | sknp x =>
    obtain rfl : k = s.key := hkey.resolve_right fun h => (h x).2.1 rfl
    simp only [exec, execSknp, State.withInputs_reg, State.withInputs_key, skipIf_withInputs]
    cases keyOf (s.reg x) <;> rfl
  | ldVxK x =>
    obtain rfl : k = s.key := hkey.resolve_right fun h => (h x).2.2 rfl
    rfl
  -- no guard and no look at an input: both sides compute to the same state
  | _ => rfl

end

/-- Any instruction but CXNN leaves the keys, the count of draws and the agenda as they are. -/
theorem exec_keeps_inputs (i : Instr) (s : State) (hrnd : ∀ x nn, i ≠ .rnd x nn) :
    mapNext (State.withInputs s.key s.draws s.agenda) (exec i s) = exec i s :=
  (exec_withInputs s.key s.draws s.agenda s i hrnd (.inl rfl)).symm

end Sys2Proof.Machine

open Sys2Proof.Machine Sys2Proof.Safety

/-- Settles O17: the case of `exec_withInputs` in which only the count of draws differs. -/
theorem randomReachesOnlyRnd : Obligations.RandomReachesOnlyRnd := by
  intro i s d hrnd
  calc exec i (s.withInputs s.key d s.agenda)
      = mapNext (State.withInputs s.key d s.agenda) (exec i s) := exec_withInputs _ _ _ _ i hrnd (.inl rfl)
    _ = mapNext (fun t => { t with draws := d }) (mapNext (State.withInputs s.key s.draws s.agenda) (exec i s)) := by
      rw [mapNext_mapNext]; rfl
    _ = mapNext (fun t => { t with draws := d }) (exec i s) := by rw [exec_keeps_inputs i s hrnd]
end

section
/-! The fields each instruction may write (10_state R20): `writes` lists them, `exec_faultsOrWrites` says an
instruction that raises no fault writes nothing else, and every frame statement is read off that list. -/

namespace Sys2Proof.Machine

open Sys2Proof.Safety

/-- The fields of the state record (10_state R20), each V register a field of its own. -/
inductive Field where
  | mem | reg (r : Reg) | i | pc | sp | stack | dt | st | fb | key | redraw | run | fault | draws | agenda

/-- The field holds the same value in both states. -/
def Field.Same (s t : State) : Field → Prop
  | .mem => t.mem = s.mem
  | .reg r => t.reg r = s.reg r
  | .i => t.i = s.i
  | .pc => t.pc = s.pc
  | .sp => t.sp = s.sp
  | .stack => t.stack = s.stack
  | .dt => t.dt = s.dt
  | .st => t.st = s.st
  | .fb => t.fb = s.fb
  | .key => t.key = s.key
  | .redraw => t.redraw = s.redraw
  | .run => t.run = s.run
  | .fault => t.fault = s.fault
  | .draws => t.draws = s.draws
  | .agenda => t.agenda = s.agenda

/-- `t` differs from `s` in the listed fields at most. -/
def OnlyWrites (fs : List Field) (s t : State) : Prop := ∀ f, f ∉ fs → f.Same s t

/-- What an instruction that raises no fault may write. -/
def writes : Instr → List Field
  | .cls => [.fb, .redraw]
  | .ret | .call _ => [.sp, .stack, .pc]
  | .jp _ | .jpV0 _ | .seImm _ _ | .sneImm _ _ | .seReg _ _ | .sneReg _ _ | .skp _ | .sknp _ => [.pc]
  | .ldImm x _ | .addImm x _ | .ldReg x _ | .orReg x _ | .andReg x _ | .xorReg x _ | .ldVxDt x => [.reg x]
  | .addReg x _ | .subReg x _ | .shr x _ | .subn x _ | .shl x _ => [.reg x, .reg vf]
  | .rnd x _ => [.reg x, .draws]
  | .drw _ _ _ => [.reg vf, .fb, .redraw]
  | .ldI _ | .ldF _ => [.i]
  | .addI _ => [.i, .reg vf]
  | .ldB _ => [.mem]
  | .ldMemVx _ => [.mem, .i]
  | .ldVxMem x => (regsUpTo x).map .reg ++ [.i]
  | .ldDtVx _ => [.dt]
  | .ldStVx _ => [.st]
  | .ldVxK _ => [.run]

/-! ## What each update of the state writes -/

section
variable (s : State)

theorem Field.same_refl (f : Field) : f.Same s s := by cases f <;> rfl

theorem Field.Same.trans {s t u : State} {f : Field} (h : f.Same s t) (h' : f.Same t u) : f.Same s u := by
  cases f <;> exact Eq.trans h' h

/-- Nothing is written: whatever the list, it holds of the state itself. -/
theorem onlyWrites_refl (fs : List Field) : OnlyWrites fs s s := fun f _ => f.same_refl s

/-- One update after another writes what either does. -/
theorem OnlyWrites.trans {fs gs : List Field} {s t u : State} (h : OnlyWrites fs s t) (h' : OnlyWrites gs t u) :
    OnlyWrites (fs ++ gs) s u := fun f hf =>
  (h f fun hm => hf (List.mem_append_left _ hm)).trans (h' f fun hm => hf (List.mem_append_right _ hm))

theorem onlyWrites_setReg (x : Reg) (b : Byte) : OnlyWrites [.reg x] s (s.setReg x b) := by
  intro f hf
  cases f with
  | reg q => exact State.reg_setReg_ne s x q b fun h => hf (by simp [h])
  | _ => rfl

theorem onlyWrites_setResultFlag (x : Reg) (r flag : Byte) :
    OnlyWrites [.reg x, .reg vf] s (s.setResultFlag x r flag) :=
  (onlyWrites_setReg s x r).trans (onlyWrites_setReg _ vf flag)

theorem onlyWrites_setI (w : Word) : OnlyWrites [.i] s (s.setI w) := by
  intro f hf; cases f <;> simp_all [Field.Same]

theorem onlyWrites_setPc (a : Addr) : OnlyWrites [.pc] s (s.setPc a) := by
  intro f hf; cases f <;> simp_all [Field.Same]

theorem onlyWrites_setDt (b : Byte) : OnlyWrites [.dt] s (s.setDt b) := by
  intro f hf; cases f <;> simp_all [Field.Same]

theorem onlyWrites_setSt (b : Byte) : OnlyWrites [.st] s (s.setSt b) := by
  intro f hf; cases f <;> simp_all [Field.Same]

theorem onlyWrites_setRun (r : RunState) : OnlyWrites [.run] s (s.setRun r) := by
  intro f hf; cases f <;> simp_all [Field.Same]

theorem onlyWrites_store (a : Nat) (bs : List Byte) : OnlyWrites [.mem] s (s.store a bs) := by
  intro f hf; cases f <;> simp_all [Field.Same]

theorem onlyWrites_raise (k : FaultKind) (a : Addr) (w : Word) : OnlyWrites [.run, .fault] s (s.raise k a w) := by
  intro f hf; cases f <;> simp_all [Field.Same]

theorem onlyWrites_draws (n : Nat) : OnlyWrites [.draws] s { s with draws := n } := by
  intro f hf; cases f <;> simp_all [Field.Same, State.reg]

theorem onlyWrites_screen (p : PixelBuffer) (r : Bool) : OnlyWrites [.fb, .redraw] s { s with fb := p, redraw := r } := by
  intro f hf; cases f <;> simp_all [Field.Same, State.reg]

theorem onlyWrites_stack (v : Vector Addr 16) (n : Fin 17) :
    OnlyWrites [.sp, .stack] s { s with stack := v, sp := n } := by
  intro f hf; cases f <;> simp_all [Field.Same, State.reg]

theorem onlyWrites_loadRegs (a : Nat) (rs : List Reg) : OnlyWrites (rs.map .reg) s (loadRegs a s rs) := by
  intro f hf
  cases f with
  | reg q =>
    have hq : q ∉ rs := fun h => hf (List.mem_map_of_mem h)
    simp [Field.Same, loadRegs_reg, hq]
  | _ =>
    obtain ⟨v, hv⟩ := loadRegs_frame a s rs
    simp [Field.Same, hv]

end

/-! ## What an instruction writes -/

/-- FX65 loads VF only when X names it. -/
theorem vf_mem_regsUpTo (x : Reg) : 15 ∈ regsUpTo x ↔ x = 15 := by
  revert x; decide

/-- The instruction raises a fault, or it writes at most the fields it is listed with. -/
def FaultsOrWrites (i : Instr) (s : State) (r : Result) : Prop :=
  (∃ k, r = raiseIn k i s) ∨ ∃ t, r = .next t ∧ OnlyWrites (writes i) s t

section
variable {i : Instr} {s : State}

theorem FaultsOrWrites.fault (k : FaultKind) : FaultsOrWrites i s (raiseIn k i s) := .inl ⟨k, rfl⟩

theorem FaultsOrWrites.next {t : State} (h : OnlyWrites (writes i) s t) : FaultsOrWrites i s (.next t) := .inr ⟨t, rfl, h⟩

theorem FaultsOrWrites.ite {c : Prop} [Decidable c] {r q : Result} (hr : FaultsOrWrites i s r)
    (hq : FaultsOrWrites i s q) : FaultsOrWrites i s (if c then r else q) := by
  split
  · exact hr
  · exact hq

theorem skipIf_faultsOrWrites (c : Bool) (h : writes i = [.pc]) : FaultsOrWrites i s (skipIf c i s) :=
  .ite (.ite (.fault _) (.next (h ▸ onlyWrites_setPc s _))) (.next (onlyWrites_refl s _))

/-- Everything an instruction can do (60_exceptions R360, 10_state R20). -/
theorem exec_faultsOrWrites (i : Instr) (s : State) : FaultsOrWrites i s (exec i s) := by
  cases i with
  | cls => exact .next (onlyWrites_screen s _ _)
  | ret =>
    rcases pop_cases s with ⟨_, hp⟩ | ⟨_, hp⟩ <;> simp only [exec, execRet, hp]
    · exact .fault _
    · exact .next ((onlyWrites_stack s _ _).trans (onlyWrites_setPc _ _))
  | call nnn =>
    rcases push_cases s.pc s with ⟨_, hp⟩ | ⟨_, hp⟩ <;> simp only [exec, execCall, hp]
    · exact .fault _
    · exact .next ((onlyWrites_stack s _ _).trans (onlyWrites_setPc _ _))
  | seImm | sneImm | seReg | sneReg => exact skipIf_faultsOrWrites _ rfl
  | skp x =>
    simp only [exec, execSkp]
    cases keyOf (s.reg x)
    · exact .fault _
    · exact skipIf_faultsOrWrites _ rfl
  | sknp x =>
    simp only [exec, execSknp]
    cases keyOf (s.reg x)
    · exact .fault _
    · exact skipIf_faultsOrWrites _ rfl
  | jp => exact .next (onlyWrites_setPc s _)
  | jpV0 => exact .ite (.fault _) (.next (onlyWrites_setPc s _))
  | ldImm | addImm | ldReg | orReg | andReg | xorReg | ldVxDt => exact .next (onlyWrites_setReg s _ _)
  | addReg | subReg | shr | subn | shl => exact .next (onlyWrites_setResultFlag s _ _ _)
  | rnd => exact .next ((onlyWrites_setReg s _ _).trans (onlyWrites_draws _ _))
  | drw => exact .ite (.next ((onlyWrites_setReg s _ _).trans (onlyWrites_screen _ _ _))) (.fault _)
  | ldI | ldF => exact .next (onlyWrites_setI s _)
  | addI => exact .next ((onlyWrites_setI s _).trans (onlyWrites_setReg _ _ _))
  | ldB => exact .ite (.next (onlyWrites_store s _ _)) (.fault _)
  | ldMemVx => exact .ite (.next ((onlyWrites_store s _ _).trans (onlyWrites_setI _ _))) (.fault _)
  | ldVxMem => exact .ite (.next ((onlyWrites_loadRegs s _ _).trans (onlyWrites_setI _ _))) (.fault _)
  | ldDtVx => exact .next (onlyWrites_setDt s _)
  | ldStVx => exact .next (onlyWrites_setSt s _)
  | ldVxK => exact .next (onlyWrites_setRun s _)

/-- A next state is the faulted one or differs in the listed fields at most. -/
theorem exec_next_cases {t : State} (h : exec i s = .next t) :
    (∃ k, t = s.raise k (s.pc - 2#12) (encode i)) ∨ OnlyWrites (writes i) s t := by
  rcases exec_faultsOrWrites i s with ⟨k, hk⟩ | ⟨u, hu, hw⟩
  · rw [h, raiseIn_next, Host.Outcome.next.injEq] at hk
    exact .inl ⟨k, hk⟩
  · rw [h, Host.Outcome.next.injEq] at hu
    exact .inr (hu ▸ hw)

/-- The frame of an instruction, faults included: beyond its listed fields only the run state and the fault record. -/
theorem exec_onlyWrites {t : State} (h : exec i s = .next t) : OnlyWrites ([.run, .fault] ++ writes i) s t := by
  rcases exec_next_cases h with ⟨k, rfl⟩ | hw
  · exact (onlyWrites_raise s k _ _).trans (onlyWrites_refl _ _)
  · exact (onlyWrites_refl s _).trans hw

end

end Sys2Proof.Machine
end

section
/-! The frame statements (10_state R21 to R32): each asks which instructions list a field in `writes`, and the
hypotheses shut those out. -/

open Sys2Proof Sys2Proof.Machine Sys2Proof.Safety

/-- Settles O21: the frame of `exec_onlyWrites` at `fb` and `redraw`. -/
theorem onlyDisplayInstructionsWriteTheScreen : Obligations.OnlyDisplayInstructionsWriteTheScreen := by
  intro i s t h hcls hdrw
  have hscreen : Field.fb ∉ [.run, .fault] ++ writes i ∧ Field.redraw ∉ [.run, .fault] ++ writes i := by
    cases i with
    | cls => exact absurd rfl hcls
    | drw x y n => exact absurd rfl (hdrw x y n)
    | _ => simp [writes]
  exact ⟨exec_onlyWrites h _ hscreen.1, exec_onlyWrites h _ hscreen.2⟩

/-- Settles O22: the frame at `stack` and `sp`. -/
theorem onlyCallAndReturnWriteTheStack : Obligations.OnlyCallAndReturnWriteTheStack := by
  intro i s t h hcall hret
  have hstack : Field.stack ∉ [.run, .fault] ++ writes i ∧ Field.sp ∉ [.run, .fault] ++ writes i := by
    cases i with
    | call nnn => exact absurd rfl (hcall nnn)
    | ret => exact absurd rfl hret
    | _ => simp [writes]
  exact ⟨exec_onlyWrites h _ hstack.1, exec_onlyWrites h _ hstack.2⟩

/-- Settles O23: the frame at `mem`. -/
theorem onlyStoresWriteMemory : Obligations.OnlyStoresWriteMemory := by
  intro i s t h hstore
  have hmem : Field.mem ∉ [.run, .fault] ++ writes i := by
    cases i with
    | ldB x => exact absurd rfl (hstore x).1
    | ldMemVx x => exact absurd rfl (hstore x).2
    | _ => simp [writes]
  have hsame : t.mem = s.mem := exec_onlyWrites h _ hmem
  exact ⟨hsame, fun a => congrArg (memRead · a) hsame⟩

/-- Settles O24: the frame at `i`, `dt`, `st` and `key`, the last listed by no instruction. -/
theorem onlyTheirInstructionsWriteIndexAndTimers : Obligations.OnlyTheirInstructionsWriteIndexAndTimers := by
  intro i s t h
  refine ⟨fun hldI hx => exec_onlyWrites h .i ?_, fun hdt => exec_onlyWrites h .dt ?_,
    fun hst => exec_onlyWrites h .st ?_, exec_onlyWrites h .key ?_⟩
  all_goals cases i <;> simp_all [writes]

/-- Settles O25: the frame at `pc`. -/
theorem onlyFlowInstructionsMoveThePc : Obligations.OnlyFlowInstructionsMoveThePc := by
  intro i s t h hjump hret himm hreg hkey
  have hpc : Field.pc ∉ [.run, .fault] ++ writes i := by cases i <;> simp_all [writes]
  exact exec_onlyWrites h _ hpc

/-- Settles O26: the frame at VF, which FX65 names only with X = F. -/
theorem onlyFlagInstructionsWriteVfUnnamed : Obligations.OnlyFlagInstructionsWriteVfUnnamed := by
  intro i s t h halu hdrw haddI himm hlogic hdt hload
  have hvf : Field.reg 15 ∉ [.run, .fault] ++ writes i := by
    cases i <;> simp_all [writes, vf_mem_regsUpTo, eq_comm]
  exact exec_onlyWrites h _ hvf

end

section
/-! The invariant (10_state R33, R48; 60_exceptions R360): each kind of step keeps it. -/

namespace Sys2Proof.Machine

open Sys2Proof.Safety

variable {s t : State}

/-- A store that passes its bounds check (20_memory R64) keeps the canonical form. -/
theorem wf_store {a : Nat} {bs : List Byte} (hr : rangeOk a bs.length = true) (h : Memory.wf s.mem) :
    Memory.wf (s.store a bs).mem := by
  rcases (rangeOk_iff _ _).1 hr with hnil | hle
  · rw [List.length_eq_zero_iff.1 hnil]
    exact h
  · exact wf_storeBytes bs hle h

theorem exec_keeps_wf {i : Instr} (h : exec i s = .next t) (hwf : Memory.wf s.mem) : Memory.wf t.mem := by
  cases i with
  | ldB x =>
    simp only [exec, execLdB] at h
    split at h <;> cases h
    · exact wf_store ‹_› hwf
    · exact hwf
  | ldMemVx x =>
    simp only [exec, execLdMemVx] at h
    split at h <;> cases h
    · exact wf_store (by rwa [regBytes_length]) hwf
    · exact hwf
  | _ =>
    have hmem : t.mem = s.mem := exec_onlyWrites h .mem (by simp [writes])
    exact hmem ▸ hwf

/-- Raising a fault sets the run state and the record together, so it restores the agreement of the two. -/
theorem inv_raise (k : FaultKind) (a : Addr) (w : Word) (hwf : Memory.wf s.mem) : Inv (s.raise k a w) :=
  ⟨hwf, by simp [FaultReported]⟩

/-- While the engine is not faulted the invariant asks for canonical memory and no fault record. -/
theorem inv_iff_of_not_faulted (hrun : s.run ≠ .faulted) : Inv s ↔ Memory.wf s.mem ∧ s.fault = none := by
  simp +contextual [Safety.Inv, FaultReported, hrun]

theorem exec_keeps_inv {i : Instr} (hrun : s.run ≠ .faulted) (hi : Inv s) (h : exec i s = .next t) : Inv t := by
  obtain ⟨hwf, hfault⟩ := (inv_iff_of_not_faulted hrun).1 hi
  rcases exec_next_cases h with ⟨k, rfl⟩ | hw
  · exact inv_raise k _ _ hwf
  have hrun' : t.run ≠ .faulted := by
    cases i with
    | ldVxK x => cases h; simp
    | _ =>
      have hsame : t.run = s.run := hw .run (by simp [writes])
      exact hsame ▸ hrun
  have hfault' : t.fault = s.fault := hw .fault (by cases i <;> simp [writes])
  exact (inv_iff_of_not_faulted hrun').2 ⟨exec_keeps_wf h hwf, hfault'.trans hfault⟩

theorem runInstruction_keeps_inv (hrun : s.run ≠ .faulted) (hi : Inv s) (h : runInstruction s = .next t) : Inv t := by
  unfold runInstruction at h
  split at h
  · cases h
    exact inv_raise _ _ _ hi.1
  · split at h
    · exact exec_keeps_inv (s := s.advance) hrun hi h
    · cases h
      exact inv_raise (s := s.advance) _ _ _ hi.1

/-- A sample leaves the engine running or waiting, and no record is set. -/
theorem keyWaitSample_keeps_inv (x : Reg) (mask : Keys) (hrun : s.run ≠ .faulted) (hi : Inv s) :
    Inv (keyWaitSample x mask s) := by
  have hi' := (inv_iff_of_not_faulted hrun).1 hi
  unfold keyWaitSample
  split <;> exact (inv_iff_of_not_faulted (by simp)).2 hi'

theorem stepInstruction_keeps_inv (hrun : s.run ≠ .faulted) (hi : Inv s) (h : stepInstruction s = .next t) :
    Inv t := by
  unfold stepInstruction at h
  split at h
  · exact runInstruction_keeps_inv hrun hi h
  · cases h
    exact keyWaitSample_keeps_inv _ _ hrun hi
  · cases h

theorem runEvent_keeps_inv {e : Event} (hrun : s.run ≠ .faulted) (hi : Inv s) (h : runEvent e s = .next t) :
    Inv t := by
  cases e with
  | instr => exact stepInstruction_keeps_inv hrun hi h
  -- a tick and the host's writes touch neither memory nor the run state nor the record
  | tick | setKey | clearRedraw => cases h; exact hi
  | stop => cases h

end Sys2Proof.Machine

open Sys2Proof.Machine Sys2Proof.Safety

/-- Settles O15: a step is the event its agenda gives, taken while the engine is not faulted. -/
theorem stepKeepsTheInvariant : Obligations.StepKeepsTheInvariant := by
  intro s t hi h
  rcases step_cases s with ⟨_, hs⟩ | ⟨hrun, hs⟩ <;> rw [hs] at h
  · cases h
  · exact runEvent_keeps_inv (s := { s with agenda := s.agenda.pop.2 }) hrun hi h

/-- Settles O14: after reset no byte is listed and the engine runs with no record. -/
theorem resetMeetsTheInvariant : Obligations.ResetMeetsTheInvariant :=
  (inv_iff_of_not_faulted (by decide)).2 ⟨reset_wf, rfl⟩

end

section
/-! Keys, host writes and the canonical form of memory (10_state R32, R41, R21). -/

namespace Sys2Proof.Machine

open Sys2Proof.Safety

theorem step_of_pop {s : State} {e : Event} {rest : Agenda} (hrun : s.run ≠ .faulted)
    (h : s.agenda.pop = (e, rest)) : step s = runEvent e { s with agenda := rest } := by
  rcases step_cases s with ⟨hf, _⟩ | ⟨_, hs⟩
  · exact absurd hf hrun
  · rw [hs, h]

/-- With rising addresses a listed cell is the one read at its address. -/
theorem memRead_of_mem {m : List Host.Cell} (hrise : m.Pairwise (fun c d => c.1 < d.1)) {c : Host.Cell}
    (hc : c ∈ m) : memRead m c.1 = c.2 := by
  induction m with
  | nil => cases hc
  | cons d rest ih =>
    obtain ⟨hd, hrest⟩ := List.pairwise_cons.1 hrise
    rcases List.mem_cons.1 hc with rfl | hc
    · simp [memRead]
    · simp [memRead, (hd c hc).ne, ih hrest hc]

/-- A byte that is not the reset content is listed. -/
theorem mem_of_memRead_ne {m : List Host.Cell} {a : Nat} (h : memRead m a ≠ resetByte a) :
    (a, memRead m a) ∈ m := by
  induction m with
  | nil => exact absurd rfl h
  | cons d rest ih =>
    obtain ⟨j, b⟩ := d
    by_cases hj : j = a
    · simp [memRead, hj]
    · simp only [memRead, hj, if_false] at h ⊢
      exact List.mem_cons_of_mem _ (ih h)

/-- The cells of a canonical memory are the bytes that differ from the reset content (log 6). -/
theorem mem_iff_memRead {m : List Host.Cell} (hwf : Memory.wf m) (c : Host.Cell) :
    c ∈ m ↔ memRead m c.1 = c.2 ∧ c.2 ≠ resetByte c.1 := by
  constructor
  · intro hc
    exact ⟨memRead_of_mem hwf.1 hc, (hwf.2 c hc).2⟩
  · rintro ⟨hr, hne⟩
    have hm : (c.1, memRead m c.1) ∈ m := mem_of_memRead_ne (hr ▸ hne)
    rwa [hr] at hm

end Sys2Proof.Machine

open Sys2Proof.Machine Sys2Proof.Safety

/-- Settles O16: the case of `exec_withInputs` in which only the keys differ; CXNN looks at no key. -/
theorem keysReachOnlyKeyInstructions : Obligations.KeysReachOnlyKeyInstructions := by
  intro i s k hkey
  by_cases hrnd : ∃ x nn, i = .rnd x nn
  · obtain ⟨x, nn, rfl⟩ := hrnd
    rfl
  replace hrnd : ∀ x nn, i ≠ .rnd x nn := fun x nn h => hrnd ⟨x, nn, h⟩
  calc exec i (s.withInputs k s.draws s.agenda)
      = mapNext (State.withInputs k s.draws s.agenda) (exec i s) := exec_withInputs _ _ _ _ i hrnd (.inr hkey)
    _ = mapNext (fun t => { t with key := k }) (mapNext (State.withInputs s.key s.draws s.agenda) (exec i s)) := by
      rw [mapNext_mapNext]; rfl
    _ = mapNext (fun t => { t with key := k }) (exec i s) := by rw [exec_keeps_inputs i s hrnd]

/-- Settles O33: each host event's effect, read off `runEvent`. -/
theorem hostWritesOnlyKeysAndRedraw : Obligations.HostWritesOnlyKeysAndRedraw := by
  intro s rest hrun
  refine ⟨fun k b h => ?_, fun h => step_of_pop hrun h, fun h => step_of_pop hrun h⟩
  refine ⟨State.pressKey { s with agenda := rest } k b, step_of_pop hrun h, ?_, fun j hj => ?_, rfl⟩
  · simp
  · have hne : k.val ≠ j.val := fun e => hj (Fin.ext e.symm)
    simp [Vector.getElem_set_ne, hne]

/-- Settles O27: two rising lists of the same cells are equal, and the bytes say which cells those are. -/
theorem canonicalMemoryIsDeterminedByItsBytes : Obligations.CanonicalMemoryIsDeterminedByItsBytes := by
  intro m k hm hk hread
  have hirrefl : Std.Irrefl (fun c d : Host.Cell => c.1 < d.1) := ⟨fun c => lt_irrefl c.1⟩
  have hanti : Std.Antisymm (fun c d : Host.Cell => c.1 < d.1) := ⟨fun _ _ h h' => absurd h' h.asymm⟩
  refine hm.1.eq_of_mem_iff hk.1 fun c => ?_
  rw [mem_iff_memRead hm, mem_iff_memRead hk, hread]

end

section
/-! Fetch and the stores (20_memory R62, R63, R71; 40_engine_cycle R102): the bytes a store leaves are the bytes the next
fetch reads, and the step runs what they decode to. -/

namespace Sys2Proof.Machine

open Sys2Proof.Safety

variable {s : State}

/-! ## Fetch and the step -/

/-- A fetch inside memory: the byte at the lower address is the high one (R62, R102). -/
theorem fetch_of_pc_le (hpc : s.pc.toNat ≤ 0xFFD) :
    fetch s = some (s.byte s.pc.toNat ++ s.byte (s.pc.toNat + 1)) := by
  have hin : pcPasses (s.pc.toNat + 2) = false := by simp [pcPasses]; omega
  simp [fetch, hin, joinBytes]

/-- With an instruction step next the running engine takes its cycle (40_engine_cycle R100). -/
theorem step_of_instrNext {rest : Agenda} (hrun : s.run = .running) (hnext : InstrNext s rest) :
    step s = runInstruction { s with agenda := rest } := by
  rw [step_of_pop (by simp [hrun]) hnext]
  simp [runEvent, stepInstruction, hrun]

/-- A legal word is executed past its advance (40_engine_cycle R103). -/
theorem runInstruction_of_decodes {w : Word} {i : Instr} (hf : fetch s = some w) (hd : decodeWord w = .ok i) :
    runInstruction s = exec i s.advance := by
  simp [runInstruction, hf, hd]

/-! ## The bytes a store leaves -/

theorem State.store_byte_inside (s : State) (bs : List Byte) {a j : Nat} (hj : j < bs.length) :
    (s.store a bs).byte (a + j) = bs[j] :=
  memRead_storeBytes_inside bs s.mem a j hj

theorem State.store_byte_outside (s : State) (bs : List Byte) {a k : Nat} (hk : k < a ∨ a + bs.length ≤ k) :
    (s.store a bs).byte k = s.byte k :=
  memRead_storeBytes_outside bs s.mem a k hk

/-- FX55's byte `j` is V`j` (43_index_memory R245). -/
theorem regBytes_getElem (x : Reg) {j : Nat} (hj : j < (regBytes x s).length) :
    (regBytes x s)[j] = s.reg ⟨j, by rw [regBytes_length] at hj; omega⟩ := by
  simp only [regBytes, List.getElem_map]
  exact congrArg s.reg (Fin.ext (regsUpTo_getElem x j _))

/-- Memory after FX55's store, at every address. -/
theorem store_regBytes_byte (x : Reg) (a : Nat) :
    (s.store s.i.toNat (regBytes x s)).byte a = byteAfterRegisters x s a := by
  unfold byteAfterRegisters
  split
  next hin =>
    obtain ⟨j, rfl⟩ := Nat.exists_eq_add_of_le hin.1
    have hj : j < (regBytes x s).length := by rw [regBytes_length]; omega
    simp [s.store_byte_inside _ hj, regBytes_getElem x hj]
  next hout => exact s.store_byte_outside _ (by rw [regBytes_length]; omega)

/-- Memory after FX33's store, at every address. -/
theorem store_decimalDigits_byte (x : Reg) (a : Nat) :
    (s.store s.i.toNat (decimalDigits (s.reg x))).byte a = byteAfterDigits x s a := by
  have hdigit (j : Nat) (hj : j < 3) := s.store_byte_inside (decimalDigits (s.reg x)) (a := s.i.toNat) hj
  unfold byteAfterDigits
  split_ifs with h0 h1 h2
  · exact h0 ▸ hdigit 0 (by decide)
  · exact h1 ▸ hdigit 1 (by decide)
  · exact h2 ▸ hdigit 2 (by decide)
  · exact s.store_byte_outside _ (by rw [decimalDigits_length]; omega)

/-- A store inside memory runs (20_memory R64). -/
theorem exec_ldMemVx_of_le {x : Reg} (hi : s.i.toNat + x.val ≤ 0xFFF) :
    exec (.ldMemVx x) s = .next ((s.store s.i.toNat (regBytes x s)).setI (indexAfter x s)) :=
  if_pos ((rangeOk_iff _ _).2 (by omega))

theorem exec_ldB_of_le {x : Reg} (hi : s.i.toNat + 2 ≤ 0xFFF) :
    exec (.ldB x) s = .next (s.store s.i.toNat (decimalDigits (s.reg x))) :=
  if_pos ((rangeOk_iff _ _).2 (by omega))

end Sys2Proof.Machine

open Sys2Proof.Machine Sys2Proof.Safety

/-- Settles O28: a fetch is two reads of the memory either store leaves. -/
theorem storedBytesAreFetched : Obligations.StoredBytesAreFetched := by
  intro x s a ha
  refine ⟨fun hi => ⟨_, exec_ldMemVx_of_le hi, ?_⟩, fun hi => ⟨_, exec_ldB_of_le hi, ?_⟩⟩
  · rw [← store_regBytes_byte, ← store_regBytes_byte]
    exact fetch_of_pc_le ha
  · rw [← store_decimalDigits_byte, ← store_decimalDigits_byte]
    exact fetch_of_pc_le ha

/-- Settles O6: the fetch gives the word, and two more than a pc of at most 0xFFD is still an address. -/
theorem stepRunsTheDecodedInstruction : Obligations.StepRunsTheDecodedInstruction := by
  intro s rest i hrun hnext hpc hdec
  refine ⟨?_, by bv_omega⟩
  calc step s
      = runInstruction { s with agenda := rest } := step_of_instrNext hrun hnext
    _ = exec i (State.advance { s with agenda := rest }) := runInstruction_of_decodes (fetch_of_pc_le hpc) hdec

end

section
/-! Decoding and encoding agree (30_encoding R83, R90): the fields of an assembled word give the operands back, and the
word assembled from an accepted word's fields is that word. -/

namespace Sys2Proof

/-! ## The fields of a row's match, a literal word (30_encoding R81) -/

@[simp] theorem n1Field_ofNat (k : Nat) : n1Field (BitVec.ofNat 16 k) = BitVec.ofNat 4 ((k % 2 ^ 16) >>> 12) := by
  simp [n1Field, BitVec.extractLsb']

@[simp] theorem xField_ofNat (k : Nat) : xField (BitVec.ofNat 16 k) = BitVec.ofNat 4 ((k % 2 ^ 16) >>> 8) := by
  simp [xField, BitVec.extractLsb']

@[simp] theorem yField_ofNat (k : Nat) : yField (BitVec.ofNat 16 k) = BitVec.ofNat 4 ((k % 2 ^ 16) >>> 4) := by
  simp [yField, BitVec.extractLsb']

@[simp] theorem nField_ofNat (k : Nat) : nField (BitVec.ofNat 16 k) = BitVec.ofNat 4 (k % 2 ^ 16) := by
  simp [nField, BitVec.extractLsb']

@[simp] theorem nnField_ofNat (k : Nat) : nnField (BitVec.ofNat 16 k) = BitVec.ofNat 8 (k % 2 ^ 16) := by
  simp [nnField, BitVec.extractLsb']

@[simp] theorem nnnField_ofNat (k : Nat) : nnnField (BitVec.ofNat 16 k) = BitVec.ofNat 12 (k % 2 ^ 16) := by
  simp [nnnField, BitVec.extractLsb']

/-! ## What each family's decoder accepts -/

/-- The dispatch's last arm is family F: the arms before it take every other first nibble (R83). -/
theorem eq_F_of_not_mem {c : Nibble} (h : c ∉ [0x0#4, 0x1#4, 0x2#4, 0x3#4, 0x4#4, 0x5#4, 0x6#4, 0x7#4, 0x8#4, 0x9#4,
    0xA#4, 0xB#4, 0xC#4, 0xD#4, 0xE#4]) : c = 0xF#4 := by
  revert c
  decide

variable {w : Word} {i : Instr}

theorem encode_of_decode0 (h : decode0 w = .ok i) : encode i = w ∧ WellFormed i = true := by
  unfold decode0 at h
  split_ifs at h with hcls hret <;> cases h
  · exact ⟨hcls.symm, rfl⟩
  · exact ⟨hret.symm, rfl⟩

theorem encode_of_decode8 (hc : n1Field w = 0x8#4) (h : decode8 w = .ok i) :
    encode i = w ∧ WellFormed i = true := by
  unfold decode8 at h
  split at h <;> cases h <;> exact ⟨assemble_reg_reg w _ _ hc ‹_› _ rfl, rfl⟩

theorem encode_of_decodeE (hc : n1Field w = 0xE#4) (h : decodeE w = .ok i) :
    encode i = w ∧ WellFormed i = true := by
  unfold decodeE at h
  split at h <;> cases h <;> exact ⟨assemble_reg w _ _ hc ‹_› _ rfl, rfl⟩

theorem encode_of_decodeF (hc : n1Field w = 0xF#4) (h : decodeF w = .ok i) :
    encode i = w ∧ WellFormed i = true := by
  unfold decodeF at h
  split at h <;> cases h <;> exact ⟨assemble_reg w _ _ hc ‹_› _ rfl, rfl⟩

end Sys2Proof

open Sys2Proof

/-- Settles O2, by the operand forms of 30_encoding R84: each placed field is read back and no other reaches into it. -/
theorem decodeOfEncodeIsTheInstruction : Obligations.DecodeOfEncodeIsTheInstruction := by
  intro i hwf
  cases i with
  | cls | ret => decide
  | jp | call | ldI | jpV0 => simp [encode, decodeWord]
  | seImm | sneImm | ldImm | addImm | rnd => simp [encode, decodeWord]
  | seReg | sneReg => simp [encode, decodeWord]
  | ldReg | orReg | andReg | xorReg | addReg | subReg | shr | subn | shl => simp [encode, decodeWord, decode8]
  | drw x y n =>
    have hn : n < 16 := by simpa [WellFormed] using hwf
    simp [encode, decodeWord, Nat.mod_eq_of_lt hn]
  | skp | sknp => simp [encode, decodeWord, decodeE]
  | ldVxDt | ldVxK | ldDtVx | ldStVx | addI | ldF | ldB | ldMemVx | ldVxMem => simp [encode, decodeWord, decodeF]

/-- Settles O3, along the dispatch on the first nibble (30_encoding R83): the fields an arm reads, with what it tests, are
the whole word. -/
theorem encodeOfDecodeIsTheWord : Obligations.EncodeOfDecodeIsTheWord := by
  intro w i h
  unfold decodeWord at h
  split at h
  case h_1 => exact encode_of_decode0 h
  -- families 1, 2, A, B
  case h_2 hc | h_3 hc | h_11 hc | h_12 hc => cases h; exact ⟨assemble_addr w _ hc _ rfl, rfl⟩
  -- families 3, 4, 6, 7, C
  case h_4 hc | h_5 hc | h_7 hc | h_8 hc | h_13 hc => cases h; exact ⟨assemble_imm w _ hc _ rfl, rfl⟩
  -- families 5, 9
  case h_6 hc | h_10 hc =>
    split_ifs at h with hn
    cases h
    exact ⟨assemble_reg_reg w _ _ hc hn _ rfl, rfl⟩
  -- family D: the height is a nibble, so it is well-formed
  case h_14 hc => cases h; exact ⟨assemble_draw w _ hc _ rfl, by simp [WellFormed, (nField w).isLt]⟩
  case h_9 hc => exact encode_of_decode8 hc h
  case h_15 hc => exact encode_of_decodeE hc h
  case h_16 => exact encode_of_decodeF (eq_F_of_not_mem (by simp_all)) h

end

section
/-! The words the decoder rejects (30_encoding R86), family by family. -/

namespace Sys2Proof

variable {w : Word}

theorem decode0_rejects_iff : (∃ e, decode0 w = .error e) ↔ w ≠ 0x00E0#16 ∧ w ≠ 0x00EE#16 := by
  unfold decode0
  split_ifs <;> simp_all

/-- The function codes family 8 leaves over. -/
theorem mem_unused_of_not_mem_family8 {n : Nibble}
    (h : n ∉ [0x0#4, 0x1#4, 0x2#4, 0x3#4, 0x4#4, 0x5#4, 0x6#4, 0x7#4, 0xE#4]) :
    n ∈ [0x8#4, 0x9#4, 0xA#4, 0xB#4, 0xC#4, 0xD#4, 0xF#4] := by
  revert n
  decide

theorem decode8_rejects_iff :
    (∃ e, decode8 w = .error e) ↔ nField w ∈ [0x8#4, 0x9#4, 0xA#4, 0xB#4, 0xC#4, 0xD#4, 0xF#4] := by
  unfold decode8
  split
  case h_10 => exact iff_of_true ⟨_, rfl⟩ (mem_unused_of_not_mem_family8 (by simp_all))
  all_goals simp [*]

theorem decodeE_rejects_iff : (∃ e, decodeE w = .error e) ↔ nnField w ∉ [0x9E#8, 0xA1#8] := by
  unfold decodeE
  split
  case h_3 => exact iff_of_true ⟨_, rfl⟩ (by simp_all)
  all_goals simp [*]

theorem decodeF_rejects_iff : (∃ e, decodeF w = .error e) ↔
    nnField w ∉ [0x07#8, 0x0A#8, 0x15#8, 0x18#8, 0x1E#8, 0x29#8, 0x33#8, 0x55#8, 0x65#8] := by
  unfold decodeF
  split
  case h_10 => exact iff_of_true ⟨_, rfl⟩ (by simp_all)
  all_goals simp [*]

end Sys2Proof

open Sys2Proof

/-- Settles O5, along the dispatch on the first nibble (30_encoding R83). -/
theorem illegalWordsAreTheListedSets : Obligations.IllegalWordsAreTheListedSets := by
  intro w
  unfold decodeWord
  split
  case h_1 hc => simp [hc, decode0_rejects_iff]
  -- families 5, 9
  case h_6 hc | h_10 hc => split_ifs with hn <;> simp [hc, hn]
  case h_9 hc => simp [hc, decode8_rejects_iff]
  case h_15 hc => simp [hc, decodeE_rejects_iff]
  case h_16 =>
    have hc : n1Field w = 0xF#4 := eq_F_of_not_mem (by simp_all)
    simp [hc, decodeF_rejects_iff]
  -- the ten families with no secondary dispatch accept every word of theirs
  all_goals next hc => simp [hc]

/-- Settles O1, by evaluating the decoder on the ten words. -/
theorem knownWordsDecode : Obligations.KnownWordsDecode := by
  unfold Obligations.KnownWordsDecode
  decide

end

section
/-! The opcode table (30_encoding R87): its rows are disjoint, an accepted word selects its instruction's row, and no row
selects a rejected word. -/

namespace Sys2Proof

/-! ## The rows -/

theorem opcodeTable_nodup : opcodeTable.Nodup := by decide

/-- Two rows whose matches agree on the bits that both masks fix are one row. -/
theorem opcodeTable_eq_of_agree :
    ∀ r ∈ opcodeTable, ∀ q ∈ opcodeTable, r.value &&& q.mask = q.value &&& r.mask → r = q := by decide

theorem rowOf_mem_opcodeTable (i : Instr) : rowOf i ∈ opcodeTable := by
  cases i <;> exact List.elem_iff.1 rfl

/-- Every row fixes the first nibble, and in a family with a secondary dispatch (R83) the field decided on, at one of
the codes listed there. -/
theorem opcodeTable_fixes : ∀ r ∈ opcodeTable, n1Field r.mask = 0xF#4 ∧
    (n1Field r.value = 0x0#4 → r.mask = 0xFFFF#16 ∧ r.value ∈ [0x00E0#16, 0x00EE#16]) ∧
    (n1Field r.value ∈ [0x5#4, 0x9#4] → nField r.mask = 0xF#4 ∧ nField r.value = 0x0#4) ∧
    (n1Field r.value = 0x8#4 → nField r.mask = 0xF#4 ∧
      nField r.value ∉ [0x8#4, 0x9#4, 0xA#4, 0xB#4, 0xC#4, 0xD#4, 0xF#4]) ∧
    (n1Field r.value = 0xE#4 → nnField r.mask = 0xFF#8 ∧ nnField r.value ∈ [0x9E#8, 0xA1#8]) ∧
    (n1Field r.value = 0xF#4 → nnField r.mask = 0xFF#8 ∧
      nnField r.value ∈ [0x07#8, 0x0A#8, 0x15#8, 0x18#8, 0x1E#8, 0x29#8, 0x33#8, 0x55#8, 0x65#8]) := by
  decide

/-! ## A word that selects a row -/

variable {r q : Row} {w : Word} {i : Instr}

theorem rowSelects_iff : rowSelects r w = true ↔ w &&& r.mask = r.value := by simp [rowSelects]

/-- The rows are pairwise disjoint (R87). -/
theorem eq_of_rowSelects (hr : r ∈ opcodeTable) (hq : q ∈ opcodeTable) (hrw : rowSelects r w = true)
    (hqw : rowSelects q w = true) : r = q := by
  refine opcodeTable_eq_of_agree r hr q hq ?_
  rw [← rowSelects_iff.1 hrw, ← rowSelects_iff.1 hqw]
  ac_rfl

/-- A field the mask keeps whole is the match's. -/
theorem extractLsb'_of_rowSelects {k n : Nat} (h : rowSelects r w = true)
    (hm : r.mask.extractLsb' k n = BitVec.allOnes n) : w.extractLsb' k n = r.value.extractLsb' k n := by
  rw [← rowSelects_iff.1 h, BitVec.extractLsb'_and, hm, BitVec.and_allOnes]

theorem n1Field_of_rowSelects (h : rowSelects r w = true) (hm : n1Field r.mask = 0xF#4) :
    n1Field w = n1Field r.value :=
  extractLsb'_of_rowSelects h hm

theorem nField_of_rowSelects (h : rowSelects r w = true) (hm : nField r.mask = 0xF#4) :
    nField w = nField r.value :=
  extractLsb'_of_rowSelects h hm

theorem nnField_of_rowSelects (h : rowSelects r w = true) (hm : nnField r.mask = 0xFF#8) :
    nnField w = nnField r.value :=
  extractLsb'_of_rowSelects h hm

/-- A selecting word lies in none of the sets of R86, each of which asks for a code no row of its family has. -/
theorem not_rejected_of_rowSelects (hr : r ∈ opcodeTable) (hsel : rowSelects r w = true) :
    ¬ ∃ e, decodeWord w = .error e := by
  obtain ⟨hmask, h0, h59, h8, hE, hF⟩ := opcodeTable_fixes r hr
  rw [illegalWordsAreTheListedSets w, n1Field_of_rowSelects hsel hmask]
  rintro (⟨hc, hcls, hret⟩ | ⟨hc, hn⟩ | ⟨hc, hn⟩ | ⟨hc, hn⟩ | ⟨hc, hnn⟩ | ⟨hc, hnn⟩)
  · obtain ⟨hm, hv⟩ := h0 hc
    have hw : w = r.value := by rw [← rowSelects_iff.1 hsel, hm]; exact BitVec.and_allOnes.symm
    simp [← hw, hcls, hret] at hv
  · obtain ⟨hm, hv⟩ := h59 (by simp [hc])
    exact hn ((nField_of_rowSelects hsel hm).trans hv)
  · obtain ⟨hm, hv⟩ := h8 hc
    exact hv (nField_of_rowSelects hsel hm ▸ hn)
  · obtain ⟨hm, hv⟩ := h59 (by simp [hc])
    exact hn ((nField_of_rowSelects hsel hm).trans hv)
  · obtain ⟨hm, hv⟩ := hE hc
    exact hnn (nnField_of_rowSelects hsel hm ▸ hv)
  · obtain ⟨hm, hv⟩ := hF hc
    exact hnn (nnField_of_rowSelects hsel hm ▸ hv)

open Laws.OpcodeRow in
theorem rowSelects_rowOf_encode (i : Instr) : Statement i := by
  cases i <;> simp only [cls, ret, jp, call, seImm, sneImm, seReg, ldImm, addImm, ldReg, orReg, andReg, xorReg, addReg,
    subReg, shr, subn, shl, sneReg, ldI, jpV0, rnd, drw, skp, sknp, ldVxDt, ldVxK, ldDtVx, ldStVx, addI, ldF, ldB,
    ldMemVx, ldVxMem]

theorem rowSelects_of_decodeWord (h : decodeWord w = .ok i) : rowSelects (rowOf i) w = true := by
  obtain ⟨hw, _⟩ := encodeOfDecodeIsTheWord w i h
  exact hw ▸ rowSelects_rowOf_encode i

/-- A disjoint table filtered by a selecting word leaves the one row. -/
theorem filter_rowSelects_eq_singleton (hr : r ∈ opcodeTable) (hsel : rowSelects r w = true) :
    opcodeTable.filter (fun q => rowSelects q w) = [r] := by
  refine List.perm_singleton.1 ((List.perm_ext_iff_of_nodup (opcodeTable_nodup.filter _) (List.nodup_singleton r)).2 ?_)
  intro q
  rw [List.mem_filter, List.mem_singleton]
  constructor
  · rintro ⟨hq, hqw⟩
    exact eq_of_rowSelects hq hr hqw hsel
  · rintro rfl
    exact ⟨hr, hsel⟩

end Sys2Proof

open Sys2Proof

/-- Settles O4: an accepted word selects its instruction's row and, the rows being disjoint, no other; a row that
selected a rejected word would have it accepted. -/
theorem decodeFollowsTheOpcodeTable : Obligations.DecodeFollowsTheOpcodeTable := by
  refine ⟨rfl, fun w => ⟨fun i h => ?_, fun e h => ?_⟩⟩
  · exact filter_rowSelects_eq_singleton (rowOf_mem_opcodeTable i) (rowSelects_of_decodeWord h)
  · exact List.filter_eq_nil_iff.2 fun r hr hsel => not_rejected_of_rowSelects hr hsel ⟨e, h⟩

end

section
/-! The instruction step (40_engine_cycle R100 to R106): what a fetch, a decode and an execution answer, and what is left of
a step that faults. -/

namespace Sys2Proof.Machine

open Sys2Proof.Safety

variable {s t : State} {w : Word} {i : Instr}

/-! ## What each phase answers -/

/-- No fetch exists at 0xFFE and 0xFFF (R102). -/
theorem fetch_of_lt_pc (hpc : 0xFFD < s.pc.toNat) : fetch s = none := by
  have hpast : pcPasses (s.pc.toNat + 2) = true := (pcPasses_iff _).2 (by omega)
  simp [fetch, hpast]

theorem runInstruction_of_lt_pc (hpc : 0xFFD < s.pc.toNat) :
    runInstruction s = .next (s.raise .addressOverflow s.pc 0x0000#16) := by
  simp [runInstruction, fetch_of_lt_pc hpc]

/-- A rejected word faults after the advance (R103, R105). -/
theorem runInstruction_of_rejected {e : Illegal} (hf : fetch s = some w) (hd : decodeWord w = .error e) :
    runInstruction s = .next (s.advance.raise .decodeError s.pc w) := by
  simp [runInstruction, hf, hd]

/-- Every instruction answers a next state: a fault's entry is one (R107, 60_exceptions R353). -/
theorem exec_answers (i : Instr) (s : State) : ∃ t, exec i s = .next t := by
  rcases exec_faultsOrWrites i s with ⟨k, hk⟩ | ⟨t, ht, _⟩
  · exact ⟨_, hk.trans (raiseIn_next k i s)⟩
  · exact ⟨t, ht⟩

theorem runInstruction_answers (s : State) : ∃ t, runInstruction s = .next t := by
  rcases Nat.lt_or_ge 0xFFD s.pc.toNat with hpc | hpc
  · exact ⟨_, runInstruction_of_lt_pc hpc⟩
  · have hf := fetch_of_pc_le hpc
    cases hd : decodeWord (s.byte s.pc.toNat ++ s.byte (s.pc.toNat + 1)) with
    | ok i =>
      rw [runInstruction_of_decodes hf hd]
      exact exec_answers i s.advance
    | error e => exact ⟨_, runInstruction_of_rejected hf hd⟩

/-- Of the atomic steps only the host's stop gives no next state while the engine is not faulted (R101, R110). -/
theorem runEvent_answers {e : Event} (hrun : s.run ≠ .faulted) (he : e ≠ .stop) : ∃ t, runEvent e s = .next t := by
  cases e with
  | instr =>
    cases hr : s.run with
    | running => simpa [runEvent, stepInstruction, hr] using runInstruction_answers s
    | waitKey x mask => exact ⟨keyWaitSample x mask s, by simp [runEvent, stepInstruction, hr]⟩
    | faulted => exact absurd hr hrun
  | tick | setKey | clearRedraw => exact ⟨_, rfl⟩
  | stop => exact absurd rfl he

/-! ## A step that faults -/

/-- An instruction ends faulted only by raising a fault: FX0A alone writes the run state otherwise, to a wait. -/
theorem exec_faulted (hrun : s.run ≠ .faulted) (h : exec i s = .next t) (hf : t.run = .faulted) :
    ∃ k, t = s.raise k (s.pc - 2#12) (encode i) := by
  rcases exec_next_cases h with hraise | hw
  · exact hraise
  cases i with
  | ldVxK x => cases h; cases hf
  | _ =>
    have hsame : t.run = s.run := hw .run (by simp [writes])
    exact absurd (hsame.symm.trans hf) hrun

/-- Everything an instruction step that faults can leave (R106, 60_exceptions R352, R360). -/
theorem runInstruction_faulted (hrun : s.run ≠ .faulted) (h : runInstruction s = .next t) (hf : t.run = .faulted) :
    (0xFFD < s.pc.toNat ∧ t = s.raise .addressOverflow s.pc 0x0000#16) ∨
    (s.pc.toNat ≤ 0xFFD ∧ ∃ k, t = s.advance.raise k s.pc (s.byte s.pc.toNat ++ s.byte (s.pc.toNat + 1))) := by
  rcases Nat.lt_or_ge 0xFFD s.pc.toNat with hpc | hpc
  · rw [runInstruction_of_lt_pc hpc] at h
    cases h
    exact .inl ⟨hpc, rfl⟩
  · refine .inr ⟨hpc, ?_⟩
    have hfetch := fetch_of_pc_le hpc
    cases hd : decodeWord (s.byte s.pc.toNat ++ s.byte (s.pc.toNat + 1)) with
    | ok i =>
      rw [runInstruction_of_decodes hfetch hd] at h
      obtain ⟨k, hk⟩ := exec_faulted (s := s.advance) hrun h hf
      have haddr : s.advance.pc - 2#12 = s.pc := BitVec.add_sub_cancel s.pc 2#12
      obtain ⟨hword, _⟩ := encodeOfDecodeIsTheWord _ i hd
      exact ⟨k, by rw [hk, haddr, hword]⟩
    | error e =>
      rw [runInstruction_of_rejected hfetch hd] at h
      cases h
      exact ⟨.decodeError, rfl⟩

end Sys2Proof.Machine

open Sys2Proof Sys2Proof.Machine Sys2Proof.Safety

/-- Settles O7: the bound on the pc decides whether the fetch exists. -/
theorem fetchReadsTwoBytesOrFaults : Obligations.FetchReadsTwoBytesOrFaults := by
  refine fun s => ⟨fetch_of_pc_le, fun hpc => ⟨fetch_of_lt_pc hpc, fun rest hrun hnext => ?_⟩⟩
  calc step s
      = runInstruction { s with agenda := rest } := step_of_instrNext hrun hnext
    _ = .next (State.raise { s with agenda := rest } .addressOverflow s.pc 0x0000#16) := runInstruction_of_lt_pc hpc

/-- Settles O8: an accepted word selects its instruction's row and a rejected word none (30_encoding R87), so the one row
that is selected is the instruction's. -/
theorem decodeSelectsARowOrFaults : Obligations.DecodeSelectsARowOrFaults := by
  intro s rest w hrun hnext hf
  obtain ⟨_, htable⟩ := decodeFollowsTheOpcodeTable
  obtain ⟨haccept, hreject⟩ := htable w
  have hstep := step_of_instrNext hrun hnext
  cases hd : decodeWord w with
  | ok i =>
    refine ⟨fun r hr => ⟨i, ?_, (encodeOfDecodeIsTheWord w i hd).1, ?_⟩, fun hnone => absurd (haccept i hd) (hnone _)⟩
    · exact List.singleton_inj.1 ((haccept i hd).symm.trans hr)
    · exact hstep.trans (runInstruction_of_decodes hf hd)
  | error e =>
    refine ⟨fun r hr => ?_, fun _ => hstep.trans (runInstruction_of_rejected hf hd)⟩
    exact absurd ((hreject e hd).symm.trans hr) (List.cons_ne_nil r []).symm

/-- Settles O9: read off the two forms of `runInstruction_faulted`. -/
theorem faultingStepIsPrecise : Obligations.FaultingStepIsPrecise := by
  intro s t rest hrun hnext hstep hf
  rw [step_of_instrNext hrun hnext] at hstep
  have hrun' : s.run ≠ .faulted := by simp [hrun]
  rcases runInstruction_faulted (s := { s with agenda := rest }) hrun' hstep hf with ⟨hpc, rfl⟩ | ⟨hpc, k, rfl⟩
  · exact ⟨.addressOverflow, 0x0000#16, rfl, fun _ => rfl, .inl ⟨hpc, rfl, rfl⟩⟩
  · exact ⟨k, _, rfl, fun _ => rfl, .inr ⟨hpc, rfl, rfl⟩⟩

/-- Settles O11: an instruction raises a fault, which is a next state, or writes its fields. -/
theorem everyInstructionAnswersANextState : Obligations.EveryInstructionAnswersANextState := exec_answers

/-- Settles O12: a step is the event its agenda gives, and only the stop answers none. -/
theorem stepGoesOnUnlessFaultedOrStopped : Obligations.StepGoesOnUnlessFaultedOrStopped := by
  intro s hrun hstop
  rw [step_of_pop hrun rfl]
  exact runEvent_answers hrun hstop

end

section
/-! Runs of the core (40_engine_cycle R101): no step looks at the agenda, so the machine's steps are the run under the
sequence its agenda gives; and which sequences the agendas give. -/

namespace Sys2Proof.Machine

open Sys2Proof.Safety

/-! ## The events of an agenda -/

theorem Agenda.event_zero (a : Agenda) : a.event 0 = a.pop.1 := rfl

theorem Agenda.event_succ (a : Agenda) (n : Nat) : a.event (n + 1) = a.pop.2.event n := rfl

theorem Agenda.event_listed (es : List Event) (rest : Agenda) (n : Nat) (h : n < es.length) :
    (Agenda.listed es rest).event n = es[n] := by
  induction es generalizing n with
  | nil => cases h
  | cons e es ih =>
    cases n with
    | zero => rfl
    | succ n => exact ih n (Nat.lt_of_succ_lt_succ h)

theorem Agenda.event_listed_add (es : List Event) (rest : Agenda) (n : Nat) :
    (Agenda.listed es rest).event (es.length + n) = rest.event n := by
  induction es with
  | nil => simp [Agenda.listed]
  | cons e es ih =>
    rw [List.length_cons, Nat.succ_add]
    exact ih

/-- Each turn of a cycle rotates its events by one place, and the first of them comes. -/
theorem Agenda.event_cycle (e : Event) (es : List Event) (n : Nat) :
    some ((Agenda.cycle e es).event n) = ((e :: es).rotate n)[0]? := by
  induction n generalizing e es with
  | zero => simp [Agenda.event_zero, Agenda.pop_cycle]
  | succ n ih =>
    obtain ⟨_, f, fs, hpop, hrot⟩ := Agenda.pop_cycle e es
    rw [Agenda.event_succ, hpop, ih, hrot, List.rotate_cons_succ]

theorem Agenda.event_free (k n : Nat) : (Agenda.free k).event n = Config.schedule (k + n) := by
  induction n generalizing k with
  | zero => rfl
  | succ n ih => rw [Agenda.event_succ, Agenda.pop_free, ih, Nat.add_right_comm, Nat.add_assoc]

/-! ## No step looks at the agenda -/

/-- The same machine with other atomic steps to come (log 2). -/
def State.withAgenda (a : Agenda) (s : State) : State := { s with agenda := a }

section
variable (a b : Agenda) (s : State)

@[simp] theorem State.withAgenda_withAgenda : (s.withAgenda b).withAgenda a = s.withAgenda a := rfl
@[simp] theorem State.withAgenda_run : (s.withAgenda a).run = s.run := rfl
@[simp] theorem fetch_withAgenda : fetch (s.withAgenda a) = fetch s := rfl

theorem mapNext_withAgenda_withAgenda (r : Result) :
    mapNext (State.withAgenda a) (mapNext (State.withAgenda b) r) = mapNext (State.withAgenda a) r :=
  mapNext_mapNext ..

/-- The case of `exec_withInputs` in which only the agenda differs; CXNN looks at no agenda. -/
theorem exec_withAgenda (i : Instr) : exec i (s.withAgenda a) = mapNext (State.withAgenda a) (exec i s) := by
  by_cases hrnd : ∃ x nn, i = .rnd x nn
  · obtain ⟨x, nn, rfl⟩ := hrnd
    rfl
  replace hrnd : ∀ x nn, i ≠ .rnd x nn := fun x nn h => hrnd ⟨x, nn, h⟩
  rw [← exec_keeps_inputs i s hrnd, mapNext_mapNext]
  exact exec_withInputs s.key s.draws a s i hrnd (.inl rfl)

theorem runInstruction_withAgenda :
    runInstruction (s.withAgenda a) = mapNext (State.withAgenda a) (runInstruction s) := by
  simp only [runInstruction, fetch_withAgenda]
  cases fetch s with
  | none => rfl
  | some w =>
    cases hd : decodeWord w with
    | ok i =>
      simp only [hd]
      exact exec_withAgenda a s.advance i
    | error e =>
      simp only [hd]
      rfl

theorem keyWaitSample_withAgenda (x : Reg) (mask : Keys) :
    keyWaitSample x mask (s.withAgenda a) = (keyWaitSample x mask s).withAgenda a := by
  have hkey : (s.withAgenda a).key = s.key := rfl
  simp only [keyWaitSample, hkey]
  cases releasedKey mask s.key <;> rfl

theorem runEvent_withAgenda (e : Event) :
    runEvent e (s.withAgenda a) = mapNext (State.withAgenda a) (runEvent e s) := by
  cases e with
  | instr =>
    simp only [runEvent, stepInstruction, State.withAgenda_run]
    cases s.run with
    | running => exact runInstruction_withAgenda a s
    | waitKey x mask => exact congrArg Host.Outcome.next (keyWaitSample_withAgenda a s x mask)
    | faulted => rfl
  | tick | setKey | clearRedraw | stop => rfl

theorem takeEvent_withAgenda (e : Event) :
    takeEvent e (s.withAgenda a) = mapNext (State.withAgenda a) (takeEvent e s) := by
  simp only [takeEvent, State.withAgenda_run]
  cases s.run with
  | running | waitKey => exact runEvent_withAgenda a s e
  | faulted => rfl

end

theorem runUnder_withAgenda (a : Agenda) (k : Nat) (sched : Nat → Event) (s : State) :
    runUnder k sched (s.withAgenda a) = mapNext (State.withAgenda a) (runUnder k sched s) := by
  induction k generalizing sched s with
  | zero => rfl
  | succ k ih =>
    simp only [runUnder, takeEvent_withAgenda]
    cases takeEvent (sched 0) s with
    | next t => exact ih _ t
    | fault | refused => rfl

/-! ## The machine's steps as a run -/

/-- A step takes the agenda's next event, and the agenda after it is the rest. -/
theorem step_eq_takeEvent (s : State) :
    step s = mapNext (State.withAgenda s.agenda.pop.2) (takeEvent s.agenda.pop.1 s) :=
  takeEvent_withAgenda ..

theorem runUnder_of_next {e : Event} {k : Nat} {sched : Nat → Event} {s t : State} (he : sched 0 = e)
    (h : takeEvent e s = .next t) : runUnder (k + 1) sched s = runUnder k (fun n => sched (n + 1)) t := by
  simp [runUnder, he, h]

/-- The machine's steps are the run under the sequence its agenda gives (R101). -/
theorem steps_eq_runUnder (k : Nat) (s : State) :
    steps k s = mapNext (State.withAgenda (s.agenda.after k)) (runUnder k s.agenda.event s) := by
  induction k generalizing s with
  | zero => rfl
  | succ k ih =>
    cases h : takeEvent s.agenda.pop.1 s with
    | next t =>
      let rest := s.agenda.pop.2
      calc steps (k + 1) s
          = steps k (t.withAgenda rest) := by simp [steps, step_eq_takeEvent, h, mapNext, rest]
        _ = mapNext (State.withAgenda (rest.after k)) (runUnder k rest.event (t.withAgenda rest)) := ih _
        _ = mapNext (State.withAgenda (rest.after k)) (runUnder k rest.event t) := by
          rw [runUnder_withAgenda, mapNext_withAgenda_withAgenda]
        _ = mapNext (State.withAgenda (rest.after k)) (runUnder (k + 1) s.agenda.event s) := by
          rw [runUnder_of_next s.agenda.event_zero h]
          rfl
    | fault | refused => simp [steps, step_eq_takeEvent, runUnder, Agenda.event_zero, h, mapNext]

end Sys2Proof.Machine

open Sys2Proof.Machine

/-- Settles O18: `steps_eq_runUnder`, which rests on `exec_withAgenda`. -/
theorem stepsFollowTheAgenda : Obligations.StepsFollowTheAgenda :=
  ⟨steps_eq_runUnder, fun i s a => exec_withAgenda a s i⟩

/-- Settles O19: the events of each of the three forms of an agenda. -/
theorem agendasGiveEverySequence : Obligations.AgendasGiveEverySequence := by
  refine ⟨fun es rest => ⟨Agenda.event_listed es rest, Agenda.event_listed_add es rest⟩, fun e es n => ?_,
    Agenda.event_free⟩
  have hpos : 0 < ((e :: es).rotate n).length := by simp
  have hevent := Agenda.event_cycle e es n
  rw [List.getElem?_eq_getElem hpos, List.getElem_rotate, Option.some.injEq] at hevent
  simpa using hevent

end

section
/-! The self-loop of 40_engine_cycle R110: a jump to itself leaves the engine as it is, so a run from there moves the timers
only, by as many places as ticks have come (46_timers R330). -/

namespace Sys2Proof.Machine

open Sys2Proof.Safety

variable {s : State}

/-- The word of a self-loop is that of the jump to the pc, which undoes the advance (41_flow R140). -/
theorem runInstruction_of_atSelfLoop (h : AtSelfLoop s) : runInstruction s = .next s := by
  obtain ⟨_, hpc, hword⟩ := h
  have hdec : decodeWord (s.byte s.pc.toNat ++ s.byte (s.pc.toNat + 1)) = .ok (.jp s.pc) :=
    (congrArg decodeWord hword).trans (decodeOfEncodeIsTheInstruction (.jp s.pc) rfl)
  exact runInstruction_of_decodes (fetch_of_pc_le hpc) hdec

/-- A timer after one event: only a tick counts it down. -/
def timerAfter (e : Event) (b : Byte) : Byte := countDown^[if e = .tick then 1 else 0] b

/-- Any event but a stop keeps the engine at its self-loop and moves no timer but by a tick. -/
theorem takeEvent_of_atSelfLoop {e : Event} (h : AtSelfLoop s) (he : e ≠ .stop) :
    ∃ t, takeEvent e s = .next t ∧ AtSelfLoop t ∧ t.dt = timerAfter e s.dt ∧ t.st = timerAfter e s.st := by
  have htake : takeEvent e s = runEvent e s := by simp [takeEvent, h.1]
  rw [htake]
  cases e with
  | instr =>
    have hinstr : runEvent .instr s = .next s := by
      simpa [runEvent, stepInstruction, h.1] using runInstruction_of_atSelfLoop h
    exact ⟨s, hinstr, h, rfl, rfl⟩
  | tick | setKey | clearRedraw => exact ⟨_, rfl, h, rfl, rfl⟩
  | stop => exact absurd rfl he

/-- A run from a self-loop stays there, each timer counted down once for each tick that came. -/
theorem runUnder_of_atSelfLoop {sched : Nat → Event} (h : AtSelfLoop s) (hstop : ∀ n, sched n ≠ .stop) (k : Nat) :
    ∃ t, runUnder k sched s = .next t ∧ AtSelfLoop t ∧
      t.dt = countDown^[Nat.count (fun n => sched n = .tick) k] s.dt ∧
      t.st = countDown^[Nat.count (fun n => sched n = .tick) k] s.st := by
  induction k generalizing sched s with
  | zero => exact ⟨s, rfl, h, rfl, rfl⟩
  | succ k ih =>
    obtain ⟨u, hu, hloop, hdt, hst⟩ := takeEvent_of_atSelfLoop h (hstop 0)
    obtain ⟨t, ht, hloop', hdt', hst'⟩ := ih hloop fun n => hstop (n + 1)
    refine ⟨t, (runUnder_of_next rfl hu).trans ht, hloop', ?_, ?_⟩
    · rw [hdt', hdt, timerAfter, Nat.count_succ', Function.iterate_add_apply]
    · rw [hst', hst, timerAfter, Nat.count_succ', Function.iterate_add_apply]

theorem countDown_toNat (b : Byte) : (countDown b).toNat = b.toNat - 1 := by
  unfold countDown
  split <;> bv_omega

theorem countDown_iterate_toNat (n : Nat) (b : Byte) : (countDown^[n] b).toNat = b.toNat - n := by
  induction n with
  | zero => rfl
  | succ n ih => rw [Function.iterate_succ_apply', countDown_toNat, ih, Nat.sub_sub]

/-- 255 ticks run any timer out. -/
theorem countDown_iterate_255 (b : Byte) : countDown^[255] b = 0#8 := by
  have hle : b.toNat ≤ 255 := Nat.le_of_lt_succ b.isLt
  apply BitVec.eq_of_toNat_eq
  rw [countDown_iterate_toNat]
  exact Nat.sub_eq_zero_of_le hle

/-- Under fairness an event comes as often as asked for. -/
theorem exists_count_eq_of_fairTo {e : Event} {sched : Nat → Event} (h : FairTo e sched) (m : Nat) :
    ∃ k, Nat.count (fun n => sched n = e) k = m := by
  have hinf := Nat.frequently_atTop_iff_infinite.1 ((Filter.frequently_atTop (p := fun n => sched n = e)).2 h)
  exact ⟨_, Nat.count_nth_of_infinite hinf m⟩

end Sys2Proof.Machine

open Sys2Proof.Machine

/-- Settles O13: the agenda aside, the step is the jump that the self-loop's word decodes to. -/
theorem selfLoopLeavesTheStateUnchanged : Obligations.SelfLoopLeavesTheStateUnchanged := by
  intro s rest h hnext
  rw [step_of_instrNext h.1 hnext]
  exact runInstruction_of_atSelfLoop (s := { s with agenda := rest }) h

/-- Settles O20: fairness gives the 255 ticks that run both timers out; without a tick none is counted. -/
theorem timersRunOutOnlyUnderFairness : Obligations.TimersRunOutOnlyUnderFairness := by
  intro sched s h hstop
  have hrun := runUnder_of_atSelfLoop h hstop
  refine ⟨fun hfair => ?_, fun hnone k => ?_⟩
  · obtain ⟨k, hk⟩ := exists_count_eq_of_fairTo hfair 255
    obtain ⟨t, ht, hloop, hdt, hst⟩ := hrun k
    rw [hk, countDown_iterate_255] at hdt hst
    exact ⟨k, t, ht, hloop, hdt, hst⟩
  · have hcount : Nat.count (fun n => sched n = .tick) k = 0 := by simp [hnone]
    obtain ⟨t, ht, hloop, hdt, hst⟩ := hrun k
    rw [hcount] at hdt hst
    exact ⟨t, ht, hloop, hdt, hst⟩

end

section
/-! Control flow and the stack (41_flow): what each instruction answers on either side of its check. -/

namespace Sys2Proof.Machine

open Sys2Proof.Safety

variable {s : State} {i : Instr}

/-- A well-formed instruction's own word decodes to it (30_encoding R90). -/
theorem encodedAs_of_wellFormed {value mask w : Word} (hwf : WellFormed i = true) (hrow : rowOf i = ⟨value, mask⟩)
    (hword : encode i = w) : EncodedAs i value mask w :=
  ⟨hword, hrow, hword ▸ decodeOfEncodeIsTheInstruction i hwf⟩

/-- A raised fault carries the code of its kind (60_exceptions R350). -/
theorem faultsWith_of_raises {k : FaultKind} (h : exec i s = raiseIn k i s) : FaultsWith i s k (faultCode k) := h

/-- An instruction that is a conditional skip meets all three clauses of one (40_engine_cycle R104). -/
theorem skipsWhen_of_skipIf {c : Bool} {p : Prop} (h : exec i s = skipIf c i s) (hc : c = true ↔ p) :
    SkipsWhen i s p := by
  unfold SkipsWhen
  rw [← hc]
  rcases skipIf_cases c i s with ⟨rfl, hs⟩ | ⟨rfl, hle, hs⟩ | ⟨rfl, hlt, hs⟩ <;> rw [← h] at hs
  · exact ⟨fun _ => hs, nofun, nofun⟩
  · exact ⟨fun hn => absurd rfl hn, fun _ _ => hs, fun _ hlt => absurd hle hlt.not_ge⟩
  · exact ⟨fun hn => absurd rfl hn, fun _ hle => absurd hle hlt.not_ge, fun _ _ => faultsWith_of_raises hs⟩

/-! ## Calls and returns -/

/-- The state after a call with a free slot (41_flow R145). -/
def State.called (s : State) (nnn : Addr) (h : s.sp.val < 16) : State :=
  { s with pc := nnn, stack := s.stack.set s.sp.val s.pc, sp := ⟨s.sp.val + 1, Nat.succ_lt_succ h⟩ }

/-- The state after a return with a slot to pop (41_flow R135). -/
def State.returned (s : State) (h : 0 < s.sp.val) : State :=
  { s with pc := s.stack[s.sp.val - 1], sp := ⟨s.sp.val - 1, by omega⟩ }

/-- Everything a call can do (41_flow R145, R131). -/
theorem exec_call_cases (nnn : Addr) (s : State) :
    (s.sp.val = 16 ∧ exec (.call nnn) s = raiseIn .stackOverflow (.call nnn) s) ∨
    ∃ h : s.sp.val < 16, exec (.call nnn) s = .next (s.called nnn h) := by
  rcases push_cases s.pc s with ⟨hfull, hp⟩ | ⟨hfree, hp⟩
  · exact .inl ⟨hfull, by simp only [exec, execCall, hp]⟩
  · exact .inr ⟨hfree, by simp only [exec, execCall, hp]; rfl⟩

/-- Everything a return can do (41_flow R135, R132). -/
theorem exec_ret_cases (s : State) :
    (s.sp.val = 0 ∧ exec .ret s = raiseIn .stackUnderflow .ret s) ∨
    ∃ h : 0 < s.sp.val, exec .ret s = .next (s.returned h) := by
  rcases pop_cases s with ⟨hempty, hp⟩ | ⟨hpos, hp⟩
  · exact .inl ⟨hempty, by simp only [exec, execRet, hp]⟩
  · exact .inr ⟨hpos, by simp only [exec, execRet, hp]; rfl⟩

theorem exec_call_of_lt (nnn : Addr) (h : s.sp.val < 16) : exec (.call nnn) s = .next (s.called nnn h) := by
  rcases exec_call_cases nnn s with ⟨hfull, _⟩ | ⟨_, hs⟩
  · exact absurd hfull h.ne
  · exact hs

theorem exec_ret_of_pos (h : 0 < s.sp.val) : exec .ret s = .next (s.returned h) := by
  rcases exec_ret_cases s with ⟨hempty, _⟩ | ⟨_, hs⟩
  · exact absurd hempty h.ne'
  · exact hs

/-! ## The offset jump -/

/-- Everything BNNN can do (41_flow R160). -/
theorem exec_jpV0_cases (nnn : Addr) (s : State) :
    (nnn.toNat + (s.reg 0).toNat ≤ 0xFFF ∧
      exec (.jpV0 nnn) s = .next (s.setPc (BitVec.ofNat 12 (nnn.toNat + (s.reg 0).toNat)))) ∨
    (0xFFF < nnn.toNat + (s.reg 0).toNat ∧ exec (.jpV0 nnn) s = raiseIn .addressOverflow (.jpV0 nnn) s) := by
  rcases Nat.lt_or_ge 0xFFF (nnn.toNat + (s.reg 0).toNat) with hlt | hle
  · exact .inr ⟨hlt, if_pos ((pcPasses_iff _).2 hlt)⟩
  · exact .inl ⟨hle, if_neg fun h => absurd hle ((pcPasses_iff _).1 h).not_ge⟩

end Sys2Proof.Machine

open Sys2Proof.Machine Sys2Proof.Safety

/-- Settles O37: the two sides of `exec_call_cases`. -/
theorem callPushesTheReturnAddress : Obligations.CallPushesTheReturnAddress := by
  intro nnn s
  refine ⟨encodedAs_of_wellFormed rfl rfl rfl, fun hfree => ?_, fun hfull => ?_⟩
  · refine ⟨_, exec_call_of_lt nnn hfree, rfl, rfl, Vector.getElem_set_self _, fun j hj => ?_, rfl, fun _ => rfl⟩
    exact Vector.getElem_set_ne hfree j.isLt (Ne.symm hj)
  · rcases exec_call_cases nnn s with ⟨_, hs⟩ | ⟨hfree, _⟩
    · exact faultsWith_of_raises hs
    · exact absurd hfull hfree.ne

/-- Settles O38: the two sides of `exec_ret_cases`. -/
theorem returnPopsTheReturnAddress : Obligations.ReturnPopsTheReturnAddress := by
  refine ⟨encodedAs_of_wellFormed rfl rfl rfl, fun s => ⟨fun hpos => ?_, fun hempty => ?_⟩⟩
  · exact ⟨_, exec_ret_of_pos hpos, rfl, rfl, rfl, fun _ => rfl⟩
  · rcases exec_ret_cases s with ⟨_, hs⟩ | ⟨hpos, _⟩
    · exact faultsWith_of_raises hs
    · exact absurd hempty hpos.ne'

/-- Settles O39: the slot a call writes is the one the return pops. -/
theorem returnAfterCallRestoresPcAndSp : Obligations.ReturnAfterCallRestoresPcAndSp := by
  intro nnn a s hfree
  have hpos : 0 < ({ s.called nnn hfree with pc := a } : State).sp.val := Nat.succ_pos _
  have hslot : (s.stack.set s.sp.val s.pc)[s.sp.val] = s.pc := Vector.getElem_set_self _
  exact ⟨_, _, exec_call_of_lt nnn hfree, exec_ret_of_pos hpos, hslot, rfl⟩

/-- Settles O40: both are conditional skips. -/
theorem immediateSkips : Obligations.ImmediateSkips := fun _ _ _ =>
  ⟨encodedAs_of_wellFormed rfl rfl rfl, encodedAs_of_wellFormed rfl rfl rfl,
    skipsWhen_of_skipIf rfl beq_iff_eq, skipsWhen_of_skipIf rfl bne_iff_ne⟩

/-- Settles O41: both are conditional skips. -/
theorem registerSkips : Obligations.RegisterSkips := fun _ _ _ =>
  ⟨encodedAs_of_wellFormed rfl rfl rfl, encodedAs_of_wellFormed rfl rfl rfl,
    skipsWhen_of_skipIf rfl beq_iff_eq, skipsWhen_of_skipIf rfl bne_iff_ne⟩

/-- Settles O42: the two sides of `exec_jpV0_cases`; a sum of at most 0xFFF fits the pc. -/
theorem offsetJumpAddsV0 : Obligations.OffsetJumpAddsV0 := by
  intro nnn s
  refine ⟨encodedAs_of_wellFormed rfl rfl rfl, ?_⟩
  rcases exec_jpV0_cases nnn s with ⟨hle, hs⟩ | ⟨hlt, hs⟩
  · have hpc : (BitVec.ofNat 12 (nnn.toNat + (s.reg 0).toNat)).toNat = nnn.toNat + (s.reg 0).toNat :=
      (BitVec.toNat_ofNat ..).trans (Nat.mod_eq_of_lt (Nat.lt_succ_of_le hle))
    exact ⟨fun _ => ⟨_, hs, hpc, rfl, fun _ => rfl⟩, fun hlt => absurd hle hlt.not_ge⟩
  · exact ⟨fun hle => absurd hle hlt.not_ge, fun _ => faultsWith_of_raises hs⟩

/-- Settles O36: the jump sets the pc and does nothing else. -/
theorem jumpSetsThePc : Obligations.JumpSetsThePc := fun _ _ => ⟨encodedAs_of_wellFormed rfl rfl rfl, rfl⟩

end

section
/-! Registers and arithmetic (42_alu): the one or two register writes an instruction is, and the model's results and flags as
the spec's numbers. -/

namespace Sys2Proof.Machine

open Sys2Proof.Safety

/-! ## The register writes -/

section
variable {s : State} {i : Instr} {x : Reg} {r flag : Byte}

theorem onlyRegisters_setReg (s : State) (x : Reg) (r : Byte) : OnlyRegisters s (s.setReg x r) :=
  ⟨rfl, fun _ => rfl⟩

theorem onlyRegisters_setResultFlag (s : State) (x : Reg) (r flag : Byte) :
    OnlyRegisters s (s.setResultFlag x r flag) :=
  ⟨rfl, fun _ => rfl⟩

theorem writesReg_of_exec (h : exec i s = .next (s.setReg x r)) : WritesReg i s x r :=
  ⟨_, h, s.reg_setReg_same x r, fun q hq => s.reg_setReg_ne x q r hq, onlyRegisters_setReg s x r⟩

/-- The flag is written last, so with X = F it is what VF keeps (42_alu R170). -/
theorem writesRegAndFlag_of_exec (h : exec i s = .next (s.setResultFlag x r flag)) :
    WritesRegAndFlag i s x r flag :=
  ⟨_, h, s.setResultFlag_vf x r flag, s.setResultFlag_result x r flag,
    fun q hx hf => s.setResultFlag_other x q r flag hx hf, onlyRegisters_setResultFlag s x r flag⟩

end

/-! ## Results as numbers -/

section
variable (a b : Byte)

theorem add_eq_ofNat_mod : a + b = BitVec.ofNat 8 ((a.toNat + b.toNat) % 256) :=
  BitVec.eq_of_toNat_eq (by simp)

theorem sub_eq_ofInt : a - b = BitVec.ofInt 8 ((a.toNat : Int) - b.toNat) := by
  rw [Int.sub_eq_add_neg, BitVec.ofInt_add, BitVec.ofInt_neg, BitVec.ofInt_natCast, BitVec.ofInt_natCast,
    BitVec.ofNat_toNat, BitVec.ofNat_toNat, BitVec.setWidth_eq, BitVec.setWidth_eq, BitVec.sub_eq_add_neg]

theorem shiftRight_one_eq_ofNat : b >>> 1 = BitVec.ofNat 8 (b.toNat / 2) :=
  BitVec.eq_of_toNat_eq (by rw [BitVec.toNat_ushiftRight, Nat.shiftRight_one, BitVec.toNat_ofNat]; omega)

theorem shiftLeft_one_eq_ofNat : b <<< 1 = BitVec.ofNat 8 (b.toNat * 2 % 256) :=
  BitVec.eq_of_toNat_eq (by rw [BitVec.toNat_shiftLeft, Nat.shiftLeft_eq, BitVec.toNat_ofNat]; omega)

/-! ## Flags as numbers -/

theorem flagOf_decide (p : Prop) [Decidable p] : flagOf (decide p) = if p then 1#8 else 0#8 := by
  simp [flagOf]

theorem carryFlag_eq : carryFlag a b = if a.toNat + b.toNat > 255 then 1#8 else 0#8 := flagOf_decide _

theorem noBorrowFlag_eq : noBorrowFlag a b = if a.toNat ≥ b.toNat then 1#8 else 0#8 := flagOf_decide _

/-- Bit `k` of a byte as a flag. -/
theorem flagOf_getLsbD (k : Nat) : flagOf (b.getLsbD k) = BitVec.ofNat 8 (b.toNat / 2 ^ k % 2) := by
  have hbit : ∀ c : Bool, flagOf c = BitVec.ofNat 8 c.toNat := by decide
  rw [hbit, ← BitVec.testBit_toNat, Nat.toNat_testBit]

theorem lowBitFlag_eq : lowBitFlag b = BitVec.ofNat 8 (b.toNat % 2) := by
  rw [lowBitFlag, flagOf_getLsbD, Nat.pow_zero, Nat.div_one]

theorem highBitFlag_eq : highBitFlag b = BitVec.ofNat 8 (b.toNat / 128) := by
  have hlt : b.toNat / 128 < 2 := by omega
  rw [highBitFlag, flagOf_getLsbD, show 2 ^ 7 = 128 from rfl, Nat.mod_eq_of_lt hlt]

end

end Sys2Proof.Machine

open Sys2Proof.Machine Sys2Proof.Safety

/-- Settles O43: each is one register write. -/
theorem loadsAndImmediateAdd : Obligations.LoadsAndImmediateAdd := by
  intro x y nn s
  rw [← add_eq_ofNat_mod]
  exact ⟨encodedAs_of_wellFormed rfl rfl rfl, encodedAs_of_wellFormed rfl rfl rfl, encodedAs_of_wellFormed rfl rfl rfl,
    writesReg_of_exec rfl, writesReg_of_exec rfl, writesReg_of_exec rfl⟩

/-- Settles O44: with `logicResetsVf` false each is one register write. -/
theorem logicLeavesVf : Obligations.LogicLeavesVf := fun _ _ _ =>
  ⟨encodedAs_of_wellFormed rfl rfl rfl, encodedAs_of_wellFormed rfl rfl rfl, encodedAs_of_wellFormed rfl rfl rfl,
    writesReg_of_exec rfl, writesReg_of_exec rfl, writesReg_of_exec rfl⟩

/-- Settles O45: the sum and then `carryFlag`. -/
theorem addSetsCarry : Obligations.AddSetsCarry := by
  intro x y s
  rw [← add_eq_ofNat_mod, ← carryFlag_eq]
  exact ⟨encodedAs_of_wellFormed rfl rfl rfl, writesRegAndFlag_of_exec rfl⟩

/-- Settles O46: a difference and then `noBorrowFlag`, the operands exchanged in 8XY7. -/
theorem subtractSetsNoBorrow : Obligations.SubtractSetsNoBorrow := by
  intro x y s
  rw [← sub_eq_ofInt, ← sub_eq_ofInt, ← noBorrowFlag_eq, ← noBorrowFlag_eq]
  exact ⟨encodedAs_of_wellFormed rfl rfl rfl, encodedAs_of_wellFormed rfl rfl rfl,
    writesRegAndFlag_of_exec rfl, writesRegAndFlag_of_exec rfl⟩

/-- Settles O47: with `shiftSrc` VY, a shift of VY and then the bit it drops. -/
theorem shiftsMoveVyAndKeepTheBitOut : Obligations.ShiftsMoveVyAndKeepTheBitOut := by
  intro x y s
  rw [← shiftRight_one_eq_ofNat, ← shiftLeft_one_eq_ofNat, ← lowBitFlag_eq, ← highBitFlag_eq]
  exact ⟨encodedAs_of_wellFormed rfl rfl rfl, encodedAs_of_wellFormed rfl rfl rfl,
    writesRegAndFlag_of_exec rfl, writesRegAndFlag_of_exec rfl⟩

/-- Settles O48: one register write, and one draw counted beside it. -/
theorem randomIsMasked : Obligations.RandomIsMasked := fun x _ s =>
  ⟨encodedAs_of_wellFormed rfl rfl rfl, _, rfl, s.reg_setReg_same x _, fun q hq => s.reg_setReg_ne x q _ hq, rfl,
    fun _ => rfl⟩

end

section
/-! The index register and memory (43_index_memory): each instruction's numbers, what FX33, FX55 and FX65 answer on either
side of the range check (20_memory R64), and the bytes and registers they leave. -/

namespace Sys2Proof.Machine

open Sys2Proof.Safety

variable {s : State} {x : Reg}

/-! ## The values of I and VF -/

/-- Five bytes for each of 256 values fit I (43_index_memory R230). -/
theorem glyphAddress_toNat (b : Byte) : (glyphAddress b).toNat = b.toNat * 5 := by
  rw [glyphAddress, BitVec.toNat_ofNat, Config.glyphBytes]
  exact Nat.mod_eq_of_lt (by omega)

/-- With `fx1eVfNoOverflow` Clear the old VF plays no part (43_index_memory R225). -/
theorem indexFlag_eq (sum : Nat) (old : Byte) :
    indexFlag fx1eVfNoOverflow sum old = if sum > 0xFFF then 1#8 else 0#8 := rfl

/-- Behind a range inside memory I does not wrap. -/
theorem indexAfter_toNat (hi : s.i.toNat + x.val ≤ 0xFFF) : (indexAfter x s).toNat = s.i.toNat + x.val + 1 := by
  rw [indexAfter, BitVec.toNat_ofNat]
  exact Nat.mod_eq_of_lt (by omega)

/-! ## The range check -/

/-- A range is inside memory exactly when its last byte is (20_memory R64). -/
theorem rangeOk_succ_iff (a n : Nat) : rangeOk a (n + 1) = true ↔ a + n ≤ 0xFFF := by
  rw [rangeOk_iff]
  omega

theorem exec_ldB_of_lt (hi : 0xFFF < s.i.toNat + 2) : exec (.ldB x) s = raiseIn .addressOverflow (.ldB x) s :=
  if_neg fun h => hi.not_ge ((rangeOk_succ_iff _ _).1 h)

theorem exec_ldMemVx_of_lt (hi : 0xFFF < s.i.toNat + x.val) :
    exec (.ldMemVx x) s = raiseIn .addressOverflow (.ldMemVx x) s :=
  if_neg fun h => hi.not_ge ((rangeOk_succ_iff _ _).1 h)

theorem exec_ldVxMem_of_lt (hi : 0xFFF < s.i.toNat + x.val) :
    exec (.ldVxMem x) s = raiseIn .addressOverflow (.ldVxMem x) s :=
  if_neg fun h => hi.not_ge ((rangeOk_succ_iff _ _).1 h)

/-- A load inside memory runs (20_memory R64). -/
theorem exec_ldVxMem_of_le (hi : s.i.toNat + x.val ≤ 0xFFF) :
    exec (.ldVxMem x) s = .next ((loadRegs s.i.toNat s (regsUpTo x)).setI (indexAfter x s)) :=
  if_pos ((rangeOk_succ_iff _ _).2 hi)

/-! ## The bytes and registers left -/

theorem byteAfterRegisters_inside {j : Reg} (hj : j ≤ x) : byteAfterRegisters x s (s.i.toNat + j.val) = s.reg j := by
  have hin : s.i.toNat ≤ s.i.toNat + j.val ∧ s.i.toNat + j.val ≤ s.i.toNat + x.val :=
    ⟨Nat.le_add_right .., Nat.add_le_add_left hj _⟩
  simp [byteAfterRegisters, hin]

theorem byteAfterRegisters_outside {a : Nat} (ha : a < s.i.toNat ∨ s.i.toNat + x.val < a) :
    byteAfterRegisters x s a = s.byte a :=
  dif_neg (by omega)

/-- FX55 leaves V`j` at I + `j`. -/
theorem store_regBytes_byte_inside {j : Reg} (hj : j ≤ x) :
    (s.store s.i.toNat (regBytes x s)).byte (s.i.toNat + j.val) = s.reg j :=
  (store_regBytes_byte x _).trans (byteAfterRegisters_inside hj)

/-- A decimal digit is below 10, so as a byte it is that number. -/
theorem digit_toNat {n : Nat} (hn : n < 10) : (BitVec.ofNat 8 n).toNat = n :=
  (BitVec.toNat_ofNat ..).trans (Nat.mod_eq_of_lt (by omega))

theorem loadRegs_regsUpTo_of_le {a : Nat} {j : Reg} (hj : j ≤ x) :
    (loadRegs a s (regsUpTo x)).reg j = s.byte (a + j.val) := by
  rw [loadRegs_reg, if_pos ((mem_regsUpTo x j).2 hj)]

theorem loadRegs_regsUpTo_of_lt {a : Nat} {j : Reg} (hj : x < j) :
    (loadRegs a s (regsUpTo x)).reg j = s.reg j := by
  rw [loadRegs_reg, if_neg fun h => hj.not_ge ((mem_regsUpTo x j).1 h)]

end Sys2Proof.Machine

open Sys2Proof.Machine Sys2Proof.Safety

/-- Settles O49: both only set I, to a value that fits it. -/
theorem indexLoads : Obligations.IndexLoads := fun _ x s =>
  ⟨encodedAs_of_wellFormed rfl rfl rfl, encodedAs_of_wellFormed rfl rfl rfl,
    ⟨_, rfl, BitVec.toNat_setWidth_of_le (by decide), rfl, fun _ => rfl⟩,
    ⟨_, rfl, glyphAddress_toNat (s.reg x), rfl, fun _ => rfl⟩⟩

/-- Settles O50: I is set and then VF, from the old I and VX. -/
theorem indexAddFlagsPassing0xFFF : Obligations.IndexAddFlagsPassing0xFFF := by
  intro x s
  refine ⟨encodedAs_of_wellFormed rfl rfl rfl, _, rfl, BitVec.toNat_ofNat .., ?_, fun q hq => ?_, rfl, fun _ => rfl⟩
  · exact (State.reg_setReg_same _ vf _).trans (indexFlag_eq _ _)
  · exact State.reg_setReg_ne _ vf q _ hq

/-- Settles O51: `decimalDigits` is stored, each digit a byte of its own, and nothing outside its three bytes changes. -/
theorem decimalStore : Obligations.DecimalStore := by
  intro x s
  have hdigit (j : Nat) (hj : j < 3) := congrArg BitVec.toNat
    (s.store_byte_inside (decimalDigits (s.reg x)) (a := s.i.toNat) hj)
  refine ⟨encodedAs_of_wellFormed rfl rfl rfl, fun hi => ⟨_, exec_ldB_of_le hi, ?_, ?_, ?_, fun a ha => ?_, rfl⟩,
    fun hi => faultsWith_of_raises (exec_ldB_of_lt hi)⟩
  · exact (hdigit 0 (by decide)).trans (digit_toNat (by omega))
  · exact (hdigit 1 (by decide)).trans (digit_toNat (by omega))
  · exact (hdigit 2 (by decide)).trans (digit_toNat (by omega))
  · exact s.store_byte_outside _ (by rw [decimalDigits_length]; omega)

/-- Settles O52: `byteAfterRegisters` inside the range and outside it. -/
theorem registerStore : Obligations.RegisterStore := by
  intro x s
  refine ⟨encodedAs_of_wellFormed rfl rfl rfl, fun hi => ⟨_, exec_ldMemVx_of_le hi, fun j hj => ?_, fun a ha => ?_,
    indexAfter_toNat hi, rfl⟩, fun hi => faultsWith_of_raises (exec_ldMemVx_of_lt hi)⟩
  · exact store_regBytes_byte_inside hj
  · exact (store_regBytes_byte x a).trans (byteAfterRegisters_outside ha)

/-- Settles O53: the loads write V0..VX and no other field. -/
theorem registerLoad : Obligations.RegisterLoad := by
  intro x s
  refine ⟨encodedAs_of_wellFormed rfl rfl rfl, fun hi => ⟨_, exec_ldVxMem_of_le hi, fun j hj => ?_, fun j hj => ?_,
    indexAfter_toNat hi, ?_⟩, fun hi => faultsWith_of_raises (exec_ldVxMem_of_lt hi)⟩
  · exact loadRegs_regsUpTo_of_le hj
  · exact loadRegs_regsUpTo_of_lt hj
  · obtain ⟨v, hv⟩ := loadRegs_frame s.i.toNat s (regsUpTo x)
    rw [hv]
    exact ⟨rfl, fun _ => rfl⟩

/-- Settles O54: the load reads V`j` from the address where the store left it. -/
theorem loadAfterStoreRestoresRegisters : Obligations.LoadAfterStoreRestoresRegisters := by
  intro x s v hi
  refine ⟨_, _, exec_ldMemVx_of_le hi, exec_ldVxMem_of_le hi, fun j hj => ?_, rfl⟩
  exact (loadRegs_regsUpTo_of_le hj).trans (store_regBytes_byte_inside hj)

end

section
/-! The display (44_display): the sprite engine's plots, rows and sprites are all one relation between canvases, and pieces
that share no cell compose. -/

namespace Sys2Proof.Machine

open Sys2Proof.Safety

variable {s : State} {x y : Reg} {n : Nat}

/-! ## Drawing 1 bits on a set of cells -/

/-- The canvas `d` is `c` with a 1 bit drawn once on each cell of `on` (44_display R265, R266). -/
structure Draws (on : Nat → Nat → Prop) (c d : Canvas) : Prop where
  turned : ∀ (cy : Fin 32) (cx : Fin 64), on cx cy → d.fb[cy][cx] = !(c.fb[cy][cx])
  kept : ∀ (cy : Fin 32) (cx : Fin 64), ¬ on cx cy → d.fb[cy][cx] = c.fb[cy][cx]
  collided : d.collided = true ↔
    c.collided = true ∨ ∃ (cy : Fin 32) (cx : Fin 64), on cx cy ∧ c.fb[cy][cx] = true

section
variable {on p q : Nat → Nat → Prop} {c d e : Canvas}

theorem Draws.of_empty (hon : ∀ cx cy, ¬ on cx cy) : Draws on c c :=
  ⟨fun cy cx h => absurd h (hon cx cy), fun _ _ _ => rfl, by simp [hon]⟩

/-- A cell of the second piece is not one of the first, so the second finds it as the first did. -/
theorem Draws.trans (hp : Draws p c d) (hq : Draws q d e) (hdisj : ∀ cx cy, q cx cy → ¬ p cx cy)
    (hon : ∀ cx cy, on cx cy ↔ p cx cy ∨ q cx cy) : Draws on c e where
  turned cy cx h := by
    rcases (hon cx cy).1 h with hcell | hcell
    · rw [hq.kept cy cx fun hcell' => hdisj cx cy hcell' hcell, hp.turned cy cx hcell]
    · rw [hq.turned cy cx hcell, hp.kept cy cx (hdisj cx cy hcell)]
  kept cy cx h := by
    obtain ⟨hnp, hnq⟩ := not_or.1 (mt (hon cx cy).2 h)
    rw [hq.kept cy cx hnq, hp.kept cy cx hnp]
  collided := by
    have hsecond : (∃ (cy : Fin 32) (cx : Fin 64), q cx cy ∧ d.fb[cy][cx] = true) ↔
        ∃ (cy : Fin 32) (cx : Fin 64), q cx cy ∧ c.fb[cy][cx] = true :=
      exists₂_congr fun cy cx => and_congr_right fun hcell => by rw [hp.kept cy cx (hdisj cx cy hcell)]
    rw [hq.collided, hp.collided, hsecond]
    simp only [hon, or_and_right, exists_or, or_assoc]

/-- Drawing the same cells again gives back the buffer (44_display R268). -/
theorem Draws.twice_fb (hfst : Draws on c d) (hsnd : Draws on ⟨d.fb, false⟩ e) : e.fb = c.fb := by
  refine Vector.ext fun cy hcy => Vector.ext fun cx hcx => ?_
  show e.fb[(⟨cy, hcy⟩ : Fin 32)][(⟨cx, hcx⟩ : Fin 64)] = c.fb[(⟨cy, hcy⟩ : Fin 32)][(⟨cx, hcx⟩ : Fin 64)]
  by_cases hcell : on cx cy
  · rw [hsnd.turned ⟨cy, hcy⟩ ⟨cx, hcx⟩ hcell, hfst.turned ⟨cy, hcy⟩ ⟨cx, hcx⟩ hcell, Bool.not_not]
  · rw [hsnd.kept ⟨cy, hcy⟩ ⟨cx, hcx⟩ hcell, hfst.kept ⟨cy, hcy⟩ ⟨cx, hcx⟩ hcell]

/-- The second drawing collides exactly where the first lit a cell (44_display R268). -/
theorem Draws.twice_collided (hfst : Draws on c d) (hsnd : Draws on ⟨d.fb, false⟩ e) :
    e.collided = true ↔ ∃ (cy : Fin 32) (cx : Fin 64), on cx cy ∧ c.fb[cy][cx] = false := by
  have hlit : (∃ (cy : Fin 32) (cx : Fin 64), on cx cy ∧ d.fb[cy][cx] = true) ↔
      ∃ (cy : Fin 32) (cx : Fin 64), on cx cy ∧ c.fb[cy][cx] = false :=
    exists₂_congr fun cy cx => and_congr_right fun hcell => by rw [hfst.turned cy cx hcell, Bool.not_eq_true']
  rw [hsnd.collided, ← hlit]
  simp

end

/-! ## The sprite engine -/

/-- A plot draws on its one cell, and on none when it is clipped. -/
theorem plot_draws (px py : Nat) (c : Canvas) : Draws (fun cx cy => px = cx ∧ py = cy) c (plot px py c) where
  turned cy cx h := by rw [plot_cell, if_pos h]
  kept cy cx h := by rw [plot_cell, if_neg h]
  collided := by
    rw [plot_collided, Bool.or_eq_true]
    refine or_congr_right ?_
    by_cases hin : px < 64 ∧ py < 32
    · rw [dif_pos hin]
      constructor
      · exact fun hlit => ⟨⟨py, hin.2⟩, ⟨px, hin.1⟩, ⟨rfl, rfl⟩, hlit⟩
      · rintro ⟨_, _, ⟨rfl, rfl⟩, hlit⟩
        exact hlit
    · rw [dif_neg hin]
      constructor
      · exact nofun
      · rintro ⟨cy, cx, ⟨rfl, rfl⟩, _⟩
        exact absurd ⟨cx.isLt, cy.isLt⟩ hin

/-- Whether the first `k` columns of a sprite row drawn at column `x0`, row `y0` have a 1 bit on cell (`cx`, `cy`). -/
def RowOn (row : Byte) (k x0 y0 cx cy : Nat) : Prop :=
  x0 ≤ cx ∧ cx < x0 + k ∧ cy = y0 ∧ spriteBit row (cx - x0) = true

/-- One column more adds the cell it falls on, when its bit is 1. -/
theorem rowOn_succ (row : Byte) (k x0 y0 cx cy : Nat) :
    RowOn row (k + 1) x0 y0 cx cy ↔
      RowOn row k x0 y0 cx cy ∨ (spriteBit row k = true ∧ x0 + k = cx ∧ y0 = cy) := by
  by_cases hcx : cx = x0 + k
  · subst hcx
    simp [RowOn, and_comm, @eq_comm _ y0 cy]
  · have hlt : cx < x0 + (k + 1) ↔ cx < x0 + k := by omega
    simp [RowOn, hlt, Ne.symm hcx]

theorem columns_draw (row : Byte) (x0 y0 : Nat) (c : Canvas) (k : Nat) :
    Draws (RowOn row k x0 y0) c
      ((List.range k).foldl (fun d col => if spriteBit row col then plot (x0 + col) y0 d else d) c) := by
  induction k with
  | zero => exact .of_empty fun cx cy ⟨hle, hlt, _⟩ => absurd hle hlt.not_ge
  | succ k ih =>
    rw [List.range_succ, List.foldl_append]
    have hcolumn (d : Canvas) : Draws (fun cx cy => spriteBit row k = true ∧ x0 + k = cx ∧ y0 = cy) d
        (if spriteBit row k then plot (x0 + k) y0 d else d) := by
      by_cases hbit : spriteBit row k = true
      · simpa [hbit] using plot_draws (x0 + k) y0 d
      · simpa [hbit] using Draws.of_empty (c := d) fun _ _ => not_false
    refine ih.trans (hcolumn _) ?_ (rowOn_succ row k x0 y0)
    rintro _ _ ⟨_, rfl, _⟩ ⟨_, hlt, _⟩
    exact lt_irrefl _ hlt

theorem drawRow_draws (row : Byte) (x0 y0 : Nat) (c : Canvas) : Draws (RowOn row 8 x0 y0) c (drawRow row x0 y0 c) :=
  columns_draw row x0 y0 c 8

/-- The cells of `SpriteOn`, for any memory, address and origin. -/
def SpriteCell (m : List Host.Cell) (a n x0 y0 cx cy : Nat) : Prop :=
  x0 ≤ cx ∧ cx < x0 + 8 ∧ y0 ≤ cy ∧ cy < y0 + n ∧ spriteBit (memRead m (a + (cy - y0))) (cx - x0) = true

/-- A sprite is its top row and the sprite of the rows below. -/
theorem spriteCell_succ (m : List Host.Cell) (a n x0 y0 cx cy : Nat) :
    SpriteCell m a (n + 1) x0 y0 cx cy ↔
      RowOn (memRead m a) 8 x0 y0 cx cy ∨ SpriteCell m (a + 1) n x0 (y0 + 1) cx cy := by
  by_cases hcy : cy = y0
  · subst hcy
    simp [SpriteCell, RowOn]
  · by_cases hlt : y0 < cy
    · have hrow : a + (cy - y0) = a + 1 + (cy - (y0 + 1)) := by omega
      have hend : cy < y0 + (n + 1) ↔ cy < y0 + 1 + n := by omega
      simp [SpriteCell, RowOn, hcy, hrow, hend, hlt, hlt.le]
    · have hnot : ¬ y0 ≤ cy := by omega
      have hnot' : ¬ y0 + 1 ≤ cy := by omega
      simp [SpriteCell, RowOn, hcy, hnot, hnot']

theorem loadBytes_succ (m : List Host.Cell) (a n : Nat) :
    loadBytes m a (n + 1) = memRead m a :: loadBytes m (a + 1) n := by
  simp [loadBytes, List.range_succ_eq_map, Nat.add_assoc, Nat.add_comm 1]

theorem drawRows_draws (m : List Host.Cell) (x0 : Nat) (n : Nat) : ∀ (a y0 : Nat) (c : Canvas),
    Draws (SpriteCell m a n x0 y0) c (drawRows (loadBytes m a n) x0 y0 c) := by
  induction n with
  | zero => exact fun a y0 c => .of_empty fun cx cy ⟨_, _, hle, hlt, _⟩ => absurd hle hlt.not_ge
  | succ n ih =>
    intro a y0 c
    rw [loadBytes_succ]
    refine (drawRow_draws (memRead m a) x0 y0 c).trans (ih (a + 1) (y0 + 1) _) ?_ (spriteCell_succ m a n x0 y0)
    rintro _ _ ⟨_, _, hbelow, _⟩ ⟨_, _, rfl, _⟩
    exact Nat.not_succ_le_self _ hbelow

theorem drawnCanvas_draws (x y : Reg) (n : Nat) (s : State) :
    Draws (SpriteOn s x y n) ⟨s.fb, false⟩ (drawnCanvas x y n s) :=
  drawRows_draws s.mem (originX (s.reg x)) n s.i.toNat (originY (s.reg y)) _

theorem drawnCanvas_collided (x y : Reg) (n : Nat) (s : State) : (drawnCanvas x y n s).collided = true ↔
    ∃ (cy : Fin 32) (cx : Fin 64), SpriteOn s x y n cx cy ∧ s.fb[cy][cx] = true := by
  rw [(drawnCanvas_draws x y n s).collided]
  simp

/-! ## DXYN -/

/-- The state after a sprite is drawn (44_display R265). -/
def State.drawn (s : State) (x y : Reg) (n : Nat) : State :=
  { s.setReg vf (flagOf (drawnCanvas x y n s).collided) with fb := (drawnCanvas x y n s).fb, redraw := true }

/-- A sprite inside memory is drawn, an empty one always (20_memory R64). -/
theorem exec_drw_of_range (hi : n = 0 ∨ s.i.toNat + n - 1 ≤ 0xFFF) : exec (.drw x y n) s = .next (s.drawn x y n) :=
  if_pos ((rangeOk_iff _ _).2 (by omega))

theorem exec_drw_of_lt (hn : 0 < n) (hi : 0xFFF < s.i.toNat + n - 1) :
    exec (.drw x y n) s = raiseIn .addressOverflow (.drw x y n) s :=
  if_neg fun h => by
    have hrange := (rangeOk_iff _ _).1 h
    omega

/-- VF after a draw is the flag of any condition under which the canvas collided. -/
theorem drawn_vf {p : Prop} (hp : (drawnCanvas x y n s).collided = true ↔ p) :
    (p → (s.drawn x y n).reg vf = 1#8) ∧ (¬ p → (s.drawn x y n).reg vf = 0#8) := by
  have hvf : (s.drawn x y n).reg vf = flagOf (drawnCanvas x y n s).collided := s.reg_setReg_same vf _
  rw [hvf, ← hp, Bool.not_eq_true]
  exact ⟨congrArg flagOf, congrArg flagOf⟩

/-- A height below 16 fits the field it is placed in. -/
theorem placeN_of_lt (hn : n < 16) : placeN n = BitVec.ofNat 16 n :=
  BitVec.eq_of_toNat_eq (by simp [placeN]; omega)

end Sys2Proof.Machine

open Sys2Proof.Machine Sys2Proof.Safety

/-- Settles O56: `drawnCanvas_draws` cell by cell, on either side of the range check. -/
theorem drawXorsTheSprite : Obligations.DrawXorsTheSprite := by
  intro x y n s hn
  have hdraws := drawnCanvas_draws x y n s
  obtain ⟨hvf1, hvf0⟩ := drawn_vf (drawnCanvas_collided x y n s)
  refine ⟨encodedAs_of_wellFormed (decide_eq_true hn) rfl ?_, fun hi => ⟨s.drawn x y n, exec_drw_of_range hi,
    fun cy cx => ⟨hdraws.turned cy cx, hdraws.kept cy cx⟩, hvf1, hvf0, fun q hq => ?_, rfl, rfl, fun _ => rfl⟩,
    fun hpos hi => faultsWith_of_raises (exec_drw_of_lt hpos hi)⟩
  · rw [← placeN_of_lt hn]
    rfl
  · exact s.reg_setReg_ne vf q _ hq

/-- Settles O57: the second draw puts the same cells' bits on the first one's buffer. -/
theorem drawTwiceRestoresTheBuffer : Obligations.DrawTwiceRestoresTheBuffer := by
  intro x y n s hi
  let t := { s.drawn x y n with v := s.v }
  have hfst : Draws (SpriteOn s x y n) ⟨s.fb, false⟩ (drawnCanvas x y n s) := drawnCanvas_draws x y n s
  have hsnd : Draws (SpriteOn s x y n) ⟨t.fb, false⟩ (drawnCanvas x y n t) := drawnCanvas_draws x y n t
  exact ⟨_, t.drawn x y n, exec_drw_of_range hi, exec_drw_of_range (s := t) hi, hfst.twice_fb hsnd,
    drawn_vf (hfst.twice_collided hsnd)⟩

/-- Settles O55: every cell of the blank buffer is off. -/
theorem clearTurnsEveryCellOff : Obligations.ClearTurnsEveryCellOff :=
  ⟨encodedAs_of_wellFormed rfl rfl rfl, fun _ => ⟨_, rfl, fun cy cx => by simp [blankBuffer], rfl, rfl, fun _ => rfl⟩⟩

end

section
/-! The keypad (45_keypad): which key a sample takes, which fields each atomic step writes while the engine waits, and what
EX9E and EXA1 answer on either side of the key check. -/

namespace Sys2Proof.Machine

open Sys2Proof.Safety

variable {s t : State} {x : Reg} {mask now : Keys} {k : Key}

/-! ## The key-wait sample -/

theorem indices_eq_finRange : indices = List.finRange 16 := by decide

/-- The key taken is released, and no lower one is (R300, R301; decision D11). -/
theorem releasedKey_eq_some_iff : releasedKey mask now = some k ↔
    (mask[k] = true ∧ now[k] = false) ∧ ∀ j < k, ¬ (mask[j] = true ∧ now[j] = false) := by
  rw [releasedKey, indices_eq_finRange, ← Fin.find?_eq_find?_finRange, Fin.find?_eq_some_iff]
  simp

theorem releasedKey_eq_none_iff : releasedKey mask now = none ↔ ∀ k : Key, mask[k] = true → now[k] = true := by
  rw [releasedKey, indices_eq_finRange, ← Fin.find?_eq_find?_finRange, Fin.find?_eq_none_iff]
  simp

/-- Everything a sample can do (R300, R301). -/
theorem keyWaitSample_cases (x : Reg) (mask : Keys) (s : State) :
    (∃ k, releasedKey mask s.key = some k ∧
      keyWaitSample x mask s = (s.setReg x (BitVec.ofNat 8 k.val)).setRun .running) ∨
    (releasedKey mask s.key = none ∧ keyWaitSample x mask s = s.setRun (.waitKey x s.key)) := by
  cases h : releasedKey mask s.key with
  | some k => exact .inl ⟨k, rfl, by simp [keyWaitSample, h]⟩
  | none => exact .inr ⟨rfl, by simp [keyWaitSample, h]⟩

/-- The waiting engine's instruction step is a sample, and fetches nothing (R300). -/
theorem runEvent_instr_of_waiting (hrun : s.run = .waitKey x mask) :
    runEvent .instr s = .next (keyWaitSample x mask s) := by
  simp [runEvent, stepInstruction, hrun]

/-! ## The waiting engine -/

/-- A step of the waiting engine is the event its agenda gives. -/
theorem step_of_waiting (hrun : s.run = .waitKey x mask) :
    step s = runEvent s.agenda.pop.1 (s.withAgenda s.agenda.pop.2) :=
  step_of_pop (by simp [hrun]) rfl

theorem step_of_waiting_instr {rest : Agenda} (hrun : s.run = .waitKey x mask) (hnext : InstrNext s rest) :
    step s = .next (keyWaitSample x mask (s.withAgenda rest)) :=
  (step_of_pop (by simp [hrun]) hnext).trans (runEvent_instr_of_waiting hrun)

/-- What each atomic step may write while the engine waits for VX (R302). -/
def waitWrites (x : Reg) : Event → List Field
  | .instr => [.reg x, .run]
  | .tick => [.dt, .st]
  | .setKey _ _ => [.key]
  | .clearRedraw => [.redraw]
  | .stop => []

@[simp] theorem mem_waitWrites (f : Field) (e : Event) : f ∈ waitWrites x e ↔
    (f = .reg x ∨ f = .run) ∧ e = .instr ∨ (f = .dt ∨ f = .st) ∧ e = .tick ∨
      f = .key ∧ (∃ k b, e = .setKey k b) ∨ f = .redraw ∧ e = .clearRedraw := by
  cases e <;> simp [waitWrites]

theorem onlyWrites_keyWaitSample (x : Reg) (mask : Keys) (s : State) :
    OnlyWrites [.reg x, .run] s (keyWaitSample x mask s) := by
  rcases keyWaitSample_cases x mask s with ⟨k, _, h⟩ | ⟨_, h⟩ <;> rw [h]
  · exact (onlyWrites_setReg s x _).trans (onlyWrites_setRun _ _)
  · exact (onlyWrites_refl s [.reg x]).trans (onlyWrites_setRun _ _)

theorem onlyWrites_withAgenda (a : Agenda) (s : State) : OnlyWrites [.agenda] s (s.withAgenda a) := by
  intro f hf; cases f <;> simp_all [Field.Same, State.withAgenda, State.reg]

theorem runEvent_onlyWrites_of_waiting {e : Event} (hrun : s.run = .waitKey x mask) (h : runEvent e s = .next t) :
    OnlyWrites (waitWrites x e) s t := by
  cases e with
  | instr =>
    rw [runEvent_instr_of_waiting hrun] at h
    cases h
    exact onlyWrites_keyWaitSample x mask s
  | tick | setKey | clearRedraw =>
    cases h
    intro f hf
    cases f <;> simp_all [Field.Same, State.reg]
  | stop => cases h

/-- The frame of a step of the waiting engine (R302). -/
theorem step_onlyWrites_of_waiting (hrun : s.run = .waitKey x mask) (h : step s = .next t) :
    OnlyWrites ([.agenda] ++ waitWrites x s.agenda.pop.1) s t := by
  rw [step_of_waiting hrun] at h
  exact (onlyWrites_withAgenda s.agenda.pop.2 s).trans (runEvent_onlyWrites_of_waiting hrun h)

theorem step_agenda (h : step s = .next t) : t.agenda = s.agenda.pop.2 := by
  rw [step_eq_takeEvent] at h
  cases htake : takeEvent s.agenda.pop.1 s <;> rw [htake] at h <;> cases h
  rfl

/-- A step ends the wait, or leaves the engine waiting for the same VX and VX as it was (R300). -/
theorem step_ends_or_keeps_wait (hrun : s.run = .waitKey x mask) (h : step s = .next t) :
    t.run = .running ∨ (∃ next, t.run = .waitKey x next) ∧ t.reg x = s.reg x := by
  by_cases he : s.agenda.pop.1 = .instr
  · rw [step_of_waiting_instr hrun (Prod.ext he rfl)] at h
    cases h
    rcases keyWaitSample_cases x mask (s.withAgenda s.agenda.pop.2) with ⟨k, _, hs⟩ | ⟨_, hs⟩ <;> rw [hs]
    · exact .inl rfl
    · exact .inr ⟨⟨_, rfl⟩, rfl⟩
  · have hw := step_onlyWrites_of_waiting hrun h
    have hkept : t.run = s.run := hw .run (by simp [he])
    exact .inr ⟨⟨mask, hkept.trans hrun⟩, hw (.reg x) (by simp [he])⟩

/-! ## EX9E and EXA1 -/

theorem exec_skp_of_key (hk : (s.reg x).toNat = k.val) : exec (.skp x) s = skipIf s.key[k] (.skp x) s := by
  simp [exec, execSkp, (keyOf_eq_some _ k).2 hk]

theorem exec_sknp_of_key (hk : (s.reg x).toNat = k.val) : exec (.sknp x) s = skipIf (!s.key[k]) (.sknp x) s := by
  simp [exec, execSknp, (keyOf_eq_some _ k).2 hk]

theorem exec_skp_of_lt (hx : 0xF < (s.reg x).toNat) : exec (.skp x) s = raiseIn .keyIndexError (.skp x) s := by
  simp [exec, execSkp, (keyOf_eq_none _).2 hx]

theorem exec_sknp_of_lt (hx : 0xF < (s.reg x).toNat) : exec (.sknp x) s = raiseIn .keyIndexError (.sknp x) s := by
  simp [exec, execSknp, (keyOf_eq_none _).2 hx]

end Sys2Proof.Machine

open Sys2Proof.Machine Sys2Proof.Safety

/-- Settles O34: the sample's two cases, told apart by `releasedKey`. -/
theorem keyWaitSampleTakesTheLowestRelease : Obligations.KeyWaitSampleTakesTheLowestRelease := by
  intro s rest x mask hrun hnext
  have hstep := step_of_waiting_instr hrun hnext
  rcases keyWaitSample_cases x mask (s.withAgenda rest) with ⟨k, hk, hs⟩ | ⟨hnone, hs⟩ <;> rw [hs] at hstep
  · refine ⟨fun l hmask hup hlow => ?_, fun hheld => ?_⟩
    · obtain rfl : k = l := Option.some.inj (hk.symm.trans (releasedKey_eq_some_iff.2 ⟨⟨hmask, hup⟩, hlow⟩))
      exact ⟨_, hstep, State.reg_setReg_same _ x _, fun q hq => State.reg_setReg_ne _ x q _ hq, rfl, fun _ => rfl⟩
    · exact absurd (hk.symm.trans (releasedKey_eq_none_iff.2 hheld)) nofun
  · refine ⟨fun l hmask hup _ => ?_, fun _ => hstep⟩
    exact absurd (releasedKey_eq_none_iff.1 hnone l hmask) (hup ▸ Bool.false_ne_true)

/-- Settles O35: the frame of the waiting engine's step, with what a sample leaves in the run state and VX. -/
theorem waitingEngineChangesOnlyItsRegister : Obligations.WaitingEngineChangesOnlyItsRegister := by
  intro s t x mask hrun h
  have hw := step_onlyWrites_of_waiting hrun h
  have hwait := step_ends_or_keeps_wait hrun h
  have hinstr : (∀ rest, ¬ InstrNext s rest) → s.agenda.pop.1 ≠ .instr := fun hn he => hn _ (Prod.ext he rfl)
  refine ⟨hw .i (by simp), hw .pc (by simp), hw .sp (by simp), hw .stack (by simp), hw .mem (by simp),
    hw .fb (by simp), hw .fault (by simp), hw .draws (by simp), step_agenda h, hwait.imp_right And.left,
    fun hn => hw .run (by simp [hinstr hn]), fun q hq => hw (.reg q) (by simp [hq]),
    fun hne => (hwait.resolve_left hne).2, fun hne => ⟨hw .dt (by simp [hne]), hw .st (by simp [hne])⟩,
    fun hne => hw .key (by simp [hne]), ?_⟩
  by_cases he : s.agenda.pop.1 = .clearRedraw
  · rw [step_of_waiting hrun, he] at h
    cases h
    exact .inr ⟨rfl, he⟩
  · exact .inl (hw .redraw (by simp [he]))

/-- Settles O58: past the key check both are conditional skips. -/
theorem keySkips : Obligations.KeySkips := fun _ _ =>
  ⟨encodedAs_of_wellFormed rfl rfl rfl, encodedAs_of_wellFormed rfl rfl rfl,
    fun hx => ⟨faultsWith_of_raises (exec_skp_of_lt hx), faultsWith_of_raises (exec_sknp_of_lt hx)⟩,
    fun _ hk => ⟨skipsWhen_of_skipIf (exec_skp_of_key hk) Iff.rfl,
      skipsWhen_of_skipIf (exec_sknp_of_key hk) (by simp)⟩⟩

/-- Settles O59: executing FX0A sets the run state and does nothing else. -/
theorem keyWaitIsEntered : Obligations.KeyWaitIsEntered := fun _ _ => ⟨encodedAs_of_wellFormed rfl rfl rfl, rfl⟩

end

section
/-! The timer unit (46_timers): a tick as an atomic step of the engine, and the sound signal. -/

namespace Sys2Proof.Machine

variable {s : State}

/-- A tick is taken in any run state but Faulted (R331); with it goes the agenda's event. -/
theorem step_of_tick {rest : Agenda} (hrun : s.run ≠ .faulted) (hpop : s.agenda.pop = (.tick, rest)) :
    step s = .next (tick (s.withAgenda rest)) :=
  step_of_pop hrun hpop

/-- 10_state R45. -/
theorem soundActive_iff : s.soundActive = true ↔ s.st ≠ 0#8 := bne_iff_ne

end Sys2Proof.Machine

open Sys2Proof.Machine Sys2Proof.Safety

/-- Settles O32: the step is `tick`, which counts each timer down and writes nothing else. -/
theorem tickCountsBothTimersDown : Obligations.TickCountsBothTimersDown := fun s _ hrun hpop =>
  ⟨_, step_of_tick hrun hpop, countDown_toNat s.dt, countDown_toNat s.st, rfl⟩

/-- Settles O60: each move is one write of the state. -/
theorem timerMoves : Obligations.TimerMoves := fun _ _ =>
  ⟨encodedAs_of_wellFormed rfl rfl rfl, encodedAs_of_wellFormed rfl rfl rfl, encodedAs_of_wellFormed rfl rfl rfl,
    writesReg_of_exec rfl, rfl, _, rfl, rfl, soundActive_iff⟩

end

section
/-! Initialisation and the loader (70_reset_and_hazards R390, R392, R403): memory byte by byte after each, the launch of
an empty image, and the engine once faulted (60_exceptions R362). -/

namespace Sys2Proof.Machine

open Sys2Proof.Safety

/-! ## Initialisation -/

theorem font_length : font.length = 80 := by decide

theorem resetByte_of_le {a : Nat} (ha : 80 ≤ a) : resetByte a = 0#8 :=
  List.getD_eq_default font 0#8 (font_length.trans_le ha)

/-- No cell is listed after reset, so every byte is the reset content. -/
theorem reset_byte (a : Nat) : State.reset.byte a = resetByte a := rfl

theorem init_byte_of_lt (f : Font) {a : Nat} (ha : a < 80) : (State.init f).byte a = f[a] := by
  have hin : a < f.toList.length := by simpa using ha
  simpa [State.init] using State.reset.store_byte_inside f.toList (a := 0) hin

theorem init_byte_of_le (f : Font) {a : Nat} (ha : 80 ≤ a) : (State.init f).byte a = 0#8 :=
  calc (State.init f).byte a
      = State.reset.byte a := State.reset.store_byte_outside _ (.inr (by simpa using ha))
    _ = 0#8 := (reset_byte a).trans (resetByte_of_le ha)

/-- Only memory depends on the font. -/
theorem init_frame (f : Font) : State.init f = { State.reset with mem := (State.init f).mem } := rfl

theorem init_inv (f : Font) : Inv (State.init f) :=
  (inv_iff_of_not_faulted (s := State.init f) (by decide : State.reset.run ≠ .faulted)).2 ⟨init_wf f, rfl⟩

theorem defaultFont_getElem {a : Nat} (ha : a < 80) : defaultFont[a] = resetByte a := by
  simp [defaultFont, resetByte]

/-- The default font is the reset content, so a canonical memory lists none of its bytes (log 6). -/
theorem init_defaultFont : State.init defaultFont = State.reset := by
  have hmem : (State.init defaultFont).mem = State.reset.mem := by
    refine canonicalMemoryIsDeterminedByItsBytes _ _ (init_wf _) reset_wf fun a => ?_
    rcases Nat.lt_or_ge a 80 with ha | ha
    · exact (init_byte_of_lt _ ha).trans (defaultFont_getElem ha)
    · exact (init_byte_of_le _ ha).trans (resetByte_of_le ha).symm
  rw [init_frame, hmem]

/-! ## The loader -/

section
variable (s : State) (bytes : List Byte)

/-- The image from 0x200 on, cut at 0xEA0. -/
theorem load_byte_inside {k : Nat} (h : k < bytes.length) (hk : k < 0xCA0) :
    (s.load bytes).byte (0x200 + k) = bytes[k] := by
  have hin : k < (bytes.take 0xCA0).length := by rw [List.length_take]; omega
  exact (s.store_byte_inside (bytes.take 0xCA0) (a := 0x200) hin).trans List.getElem_take

theorem load_byte_outside {a : Nat} (ha : a < 0x200 ∨ 0xEA0 ≤ a ∨ 0x200 + bytes.length ≤ a) :
    (s.load bytes).byte a = s.byte a :=
  s.store_byte_outside (bytes.take 0xCA0) (a := 0x200) (by rw [List.length_take]; omega)

end

/-- An empty image leaves zeros at the load address: the first fetch gives the illegal word 0. -/
theorem fetch_launch_nil (f : Font) (agenda : Agenda) :
    fetch { launch [] f with agenda := agenda } = some 0x0000#16 := by
  have hzero {a : Nat} (ha : 0x200 ≤ a) : (launch [] f).byte a = 0#8 :=
    (load_byte_outside _ [] (.inr (.inr ha))).trans (init_byte_of_le f (by omega))
  calc fetch { launch [] f with agenda := agenda }
      = some ((launch [] f).byte 0x200 ++ (launch [] f).byte 0x201) :=
        fetch_of_pc_le (s := { launch [] f with agenda := agenda }) (by decide : 0x200 ≤ 0xFFD)
    _ = some 0x0000#16 := by rw [hzero (by decide), hzero (by decide)]; rfl

end Sys2Proof.Machine

open Sys2Proof Sys2Proof.Machine Sys2Proof.Safety

/-- Settles O10: `step_cases` leaves a faulted engine no other answer. -/
theorem faultedEngineTakesNoStep : Obligations.FaultedEngineTakesNoStep := by
  intro s hf
  rcases step_cases s with ⟨_, hs⟩ | ⟨hrun, _⟩
  · exact hs
  · exact absurd hf hrun

/-- Settles O30: the glyph of digit d starts at 5 * d, inside the 80 bytes of the font that `init` stores. -/
theorem initPreloadsTheGivenFont : Obligations.InitPreloadsTheGivenFont := by
  refine ⟨fun f => ⟨fun _ => init_byte_of_lt f, fun _ ha _ => init_byte_of_le f ha, init_frame f, init_inv f, ?_⟩,
    init_defaultFont⟩
  intro x d r
  refine ⟨_, rfl, ?_⟩
  have hglyph : (glyphAddress (((State.init f).setReg x (BitVec.ofNat 8 d.val)).reg x)).toNat = d.val * 5 := by
    rw [State.reg_setReg_same, glyphAddress_toNat, BitVec.toNat_ofNat]
    omega
  simp only [State.setI_byte, State.setI_i, State.setReg_byte, hglyph]
  exact init_byte_of_lt f (by omega)

/-- Settles O31: `load` is one store of the image cut at 0xEA0, and an empty image's first word is one the decoder
rejects. -/
theorem loadPlacesTheImage : Obligations.LoadPlacesTheImage := by
  refine ⟨fun s bytes => ⟨fun _ => load_byte_inside s bytes, fun _ => load_byte_outside s bytes, rfl, rfl⟩, ?_⟩
  intro f agenda rest hnext
  have hrejected : decodeWord 0x0000#16 = .error .family0 := by decide
  calc step { launch [] f with agenda := agenda }
      = runInstruction { launch [] f with agenda := rest } := step_of_instrNext rfl hnext
    _ = .next (State.raise (State.advance { launch [] f with agenda := rest }) .decodeError 0x200#12 0x0000#16) :=
        runInstruction_of_rejected (fetch_launch_nil f rest) hrejected

/-- Settles O29: the fields are the values reset sets, and the bytes those of the font, followed by zeros. -/
theorem resetLeavesTheInitialState : Obligations.ResetLeavesTheInitialState := by
  refine ⟨fun a _ => ?_, font_length, by decide, fun q => ?_, rfl, rfl, rfl, fun j => ?_, rfl, rfl, fun cy cx => ?_,
    fun k => ?_, rfl, rfl, rfl⟩
  · rw [reset_byte]
    split
    · rfl
    · exact resetByte_of_le (by omega)
  · exact Vector.getElem_replicate q.isLt
  · exact Vector.getElem_replicate j.isLt
  · simp [State.reset]
  · exact Vector.getElem_replicate k.isLt

end
